-- ==== Sys2Proof/Word.lean ====
section
/-! DEFINITION. Word.lean: the widths of GLYPH-X (spec/00_scope.md R8, R9: XLEN = ALEN = 64). -/

namespace Sys2Proof

/-- A general register's contents, XLEN = 64 bits (R8, R14). -/
abbrev Word := BitVec 64

/-- A byte address, ALEN = 64 bits; its arithmetic is modulo 2^64 (R8, R9, R19). -/
abbrev Addr := BitVec 64

/-- One byte of memory (R30). -/
abbrev Byte := BitVec 8

/-- One 16-bit packet of the instruction stream (R50, R51). -/
abbrev Packet := BitVec 16

end Sys2Proof
end

