-- ==== Sys2Proof/Syntax.lean ====
section
/-! DEFINITION. Syntax.lean: the instructions of the 16-bit subset, one constructor per row of
spec/opcode_table.json (spec/30_encoding.md R60, R61).

Operands are held as the spec writes them: `simm` fields as integers, `uimm` fields as natural numbers, registers by name.
Whether a number fits its field is WellFormed.lean's question. -/

namespace Sys2Proof

/-- The eight general registers a 3-bit register field names (R14, R55). -/
inductive Reg where
  | r0 | r1 | r2 | r3 | r4 | r5 | r6 | r7
  deriving DecidableEq, Repr, Inhabited

/-- The instructions, in the order of the opcode map (R60, R61). `rc` is bits 15:13, `rb` bits 12:10, `ra` bits 9:7. -/
inductive Instr where
  /-- `break uimm9` (R70). -/
  | brk (uimm9 : Nat)
  /-- `j simm9×2` (R71). -/
  | j (simm9 : Int)
  /-- `b simm9×2` (R72). -/
  | b (simm9 : Int)
  /-- `ibj simm9×64` (R73). -/
  | ibj (simm9 : Int)
  /-- `jalib.i64 rc, ib64(uimm6)` (R74). -/
  | jalib (rc : Reg) (uimm6 : Nat)
  /-- `jtlib.i64 rc, ib64(uimm6)` (R75). -/
  | jtlib (rc : Reg) (uimm6 : Nat)
  /-- `movib.i64 rc, ib64(uimm6)` (R80). -/
  | movib (rc : Reg) (uimm6 : Nat)
  /-- `movi.i64 rc, simm6` (R81). -/
  | movi (rc : Reg) (simm6 : Int)
  /-- `addi.i64 rc, simm6` (R82). -/
  | addi (rc : Reg) (simm6 : Int)
  /-- `srli.i64 rc, uimm6` (R83). -/
  | srli (rc : Reg) (uimm6 : Nat)
  /-- `srai.i64 rc, uimm6` (R84). -/
  | srai (rc : Reg) (uimm6 : Nat)
  /-- `slli.i64 rc, uimm6` (R85). -/
  | slli (rc : Reg) (uimm6 : Nat)
  /-- `addib.i64 rc, ib32(uimm6)` (R86). -/
  | addib (rc : Reg) (uimm6 : Nat)
  /-- `leapc.i64 rc, ib32(uimm6)(pc)` (R90). -/
  | leapc (rc : Reg) (uimm6 : Nat)
  /-- `loadpc.i64 rc, ib32(uimm6)(pc)` (R91). -/
  | loadpc (rc : Reg) (uimm6 : Nat)
  /-- `storepc.i64 rc, ib32(uimm6)(pc)` (R92). -/
  | storepc (rc : Reg) (uimm6 : Nat)
  /-- `load.i64 rc, (uimm3×8)(rb)` (R93). -/
  | load (rc rb : Reg) (uimm3 : Nat)
  /-- `store.i64 rc, (uimm3×8)(rb)` (R94). -/
  | store (rc rb : Reg) (uimm3 : Nat)
  /-- `compare.i64 rc, rb, lt` (R100). -/
  | compareLt (rc rb : Reg)
  /-- `compare.i64 rc, rb, ge` (R101). -/
  | compareGe (rc rb : Reg)
  /-- `compare.i64 rc, rb, eq` (R102). -/
  | compareEq (rc rb : Reg)
  /-- `compare.i64 rc, rb, ne` (R103). -/
  | compareNe (rc rb : Reg)
  /-- `compare.i64 rc, rb, ltu` (R104). -/
  | compareLtu (rc rb : Reg)
  /-- `compare.i64 rc, rb, geu` (R105). -/
  | compareGeu (rc rb : Reg)
  /-- `compare.i64 rc, rb, mov`, the conditional move (R106). -/
  | compareMov (rc rb : Reg)
  /-- `compare.i64` with fun3 = 7, not assigned (R107). -/
  | compareUnassigned (rc rb : Reg)
  /-- `logic.i64 rc, rb, mov` (R110). -/
  | logicMov (rc rb : Reg)
  /-- `logic.i64 rc, rb, not` (R111). -/
  | logicNot (rc rb : Reg)
  /-- `logic.i64 rc, rb, neg` (R112). -/
  | logicNeg (rc rb : Reg)
  /-- `logic.i64 rc, rb, bswap` (R113). -/
  | logicBswap (rc rb : Reg)
  /-- `logic.i64 rc, rb, ctz` (R114). -/
  | logicCtz (rc rb : Reg)
  /-- `logic.i64 rc, rb, clz` (R115). -/
  | logicClz (rc rb : Reg)
  /-- `logic.i64 rc, rb, ctpop` (R116). -/
  | logicCtpop (rc rb : Reg)
  /-- `logic.i64 rc, rb, sext` (R117). -/
  | logicSext (rc rb : Reg)
  /-- `pin.i64 rc, rb, ra` (R120). -/
  | pin (rc rb ra : Reg)
  /-- `and.i64 rc, rb, ra` (R121). -/
  | and (rc rb ra : Reg)
  /-- `or.i64 rc, rb, ra` (R122). -/
  | or (rc rb ra : Reg)
  /-- `xor.i64 rc, rb, ra` (R123). -/
  | xor (rc rb ra : Reg)
  /-- `add.i64 rc, rb, ra` (R124). -/
  | add (rc rb ra : Reg)
  /-- `srl.i64 rc, rb, ra` (R125). -/
  | srl (rc rb ra : Reg)
  /-- `sra.i64 rc, rb, ra` (R126). -/
  | sra (rc rb ra : Reg)
  /-- `sll.i64 rc, rb, ra` (R127). -/
  | sll (rc rb ra : Reg)
  /-- `sub.i64 rc, rb, ra` (R128). -/
  | sub (rc rb ra : Reg)
  /-- `mul.i64 rc, rb, ra` (R129). -/
  | mul (rc rb ra : Reg)
  /-- `div.i64 rc, rb, ra` (R130). -/
  | div (rc rb ra : Reg)
  /-- `illegal uimm9` (R131). -/
  | illegal (uimm9 : Nat)
  deriving DecidableEq, Repr

end Sys2Proof
end

