-- ==== Sys2Proof/WellFormed.lean ====
section
/-! DEFINITION. WellFormed.lean: which terms of Instr an encoding exists for: every immediate in the range of its field
(spec/30_encoding.md R56). Register fields always fit (R55). -/

namespace Sys2Proof

/-- The 9-bit unsigned immediate of break and illegal: 0..511 (R56). -/
def fitsUimm9 (n : Nat) : Bool := decide (n < 512)

/-- The 9-bit signed immediate of j, b and ibj: −256..255 (R56). -/
def fitsSimm9 (z : Int) : Bool := decide (-256 ≤ z) && decide (z ≤ 255)

/-- The 6-bit unsigned immediate: 0..63 (R56). -/
def fitsUimm6 (n : Nat) : Bool := decide (n < 64)

/-- The 6-bit signed immediate of movi and addi: −32..31 (R56). -/
def fitsSimm6 (z : Int) : Bool := decide (-32 ≤ z) && decide (z ≤ 31)

/-- The 3-bit unsigned immediate of load and store: 0..7 (R56). -/
def fitsUimm3 (n : Nat) : Bool := decide (n < 8)

/-- Every operand fits the field the encoding gives it (R54, R55, R56). -/
def wellFormed (i : Instr) : Bool :=
  match i with
  | .brk u => fitsUimm9 u
  | .j z => fitsSimm9 z
  | .b z => fitsSimm9 z
  | .ibj z => fitsSimm9 z
  | .jalib _ u => fitsUimm6 u
  | .jtlib _ u => fitsUimm6 u
  | .movib _ u => fitsUimm6 u
  | .movi _ z => fitsSimm6 z
  | .addi _ z => fitsSimm6 z
  | .srli _ u => fitsUimm6 u
  | .srai _ u => fitsUimm6 u
  | .slli _ u => fitsUimm6 u
  | .addib _ u => fitsUimm6 u
  | .leapc _ u => fitsUimm6 u
  | .loadpc _ u => fitsUimm6 u
  | .storepc _ u => fitsUimm6 u
  | .load _ _ u => fitsUimm3 u
  | .store _ _ u => fitsUimm3 u
  | .compareLt _ _ => true
  | .compareGe _ _ => true
  | .compareEq _ _ => true
  | .compareNe _ _ => true
  | .compareLtu _ _ => true
  | .compareGeu _ _ => true
  | .compareMov _ _ => true
  | .compareUnassigned _ _ => true
  | .logicMov _ _ => true
  | .logicNot _ _ => true
  | .logicNeg _ _ => true
  | .logicBswap _ _ => true
  | .logicCtz _ _ => true
  | .logicClz _ _ => true
  | .logicCtpop _ _ => true
  | .logicSext _ _ => true
  | .pin _ _ _ => true
  | .and _ _ _ => true
  | .or _ _ _ => true
  | .xor _ _ _ => true
  | .add _ _ _ => true
  | .srl _ _ _ => true
  | .sra _ _ _ => true
  | .sll _ _ _ => true
  | .sub _ _ _ => true
  | .mul _ _ _ => true
  | .div _ _ _ => true
  | .illegal u => fitsUimm9 u

end Sys2Proof
end

