-- ==== Sys2Proof/Decode.lean ====
section
/-! DEFINITION. Decode.lean: the decoder (spec/30_encoding.md R64), total on any bytes, and after it the encoder (R65),
both from the forms of R54 and the opcode map of R60 and R61. -/

namespace Sys2Proof

/-! ## The fields of a packet (R51, R54, R55) -/

/-- The 2-bit size field, bits 1:0 (R51). -/
def fieldSz (w : Packet) : BitVec 2 := w.extractLsb' 0 2
/-- The 5-bit opcode, bits 6:2 (R51). -/
def fieldOpcode (w : Packet) : BitVec 5 := w.extractLsb' 2 5
/-- The register field rc, bits 15:13 (R55). -/
def fieldRc (w : Packet) : BitVec 3 := w.extractLsb' 13 3
/-- The register field rb, bits 12:10 (R55). -/
def fieldRb (w : Packet) : BitVec 3 := w.extractLsb' 10 3
/-- The register field ra, bits 9:7, which is also imm3 and fun3 (R54, R55). -/
def fieldRa (w : Packet) : BitVec 3 := w.extractLsb' 7 3
/-- The 9-bit immediate of form I9, bits 15:7 (R54). -/
def fieldImm9 (w : Packet) : BitVec 9 := w.extractLsb' 7 9
/-- The 6-bit immediate of form R1I6, bits 12:7 (R54). -/
def fieldImm6 (w : Packet) : BitVec 6 := w.extractLsb' 7 6

/-- The register a 3-bit field names: its number, directly (R14). -/
def regOfBits (f : BitVec 3) : Reg :=
  match f.toNat with
  | 0 => .r0
  | 1 => .r1
  | 2 => .r2
  | 3 => .r3
  | 4 => .r4
  | 5 => .r5
  | 6 => .r6
  | _ => .r7

/-! ## Instruction lengths (R53) -/

/-- The length of an instruction in the longer templates (R50, R52). -/
inductive LongLength where
  /-- Two packets, 32 bits. -/
  | bits32
  /-- Four packets, 64 bits. -/
  | bits64
  /-- Eight packets, 128 bits. -/
  | bits128
  deriving DecidableEq, Repr

/-- The length a first packet's size field announces; `none` is the 16-bit length (R53, Table 1.1). -/
def longLength (sz : BitVec 2) : Option LongLength :=
  match sz.toNat with
  | 0 => none
  | 1 => some .bits32
  | 2 => some .bits64
  | _ => some .bits128

/-- Why the decoder gives no instruction. -/
inductive DecodeError where
  /-- Fewer bytes than one packet: no packet to decode (R50). -/
  | truncated
  /-- The size field is not 00: the first packet of a longer instruction, of which the source defines none (R58). -/
  | longForm (length : LongLength)
  deriving DecidableEq, Repr

/-! ## The decoder -/

/-- The sub-functions of `compare.i64`, selected by fun3 (R61). -/
def decodeCompare (rc rb : Reg) (fun3 : BitVec 3) : Instr :=
  match fun3.toNat with
  | 0 => .compareLt rc rb
  | 1 => .compareGe rc rb
  | 2 => .compareEq rc rb
  | 3 => .compareNe rc rb
  | 4 => .compareLtu rc rb
  | 5 => .compareGeu rc rb
  | 6 => .compareMov rc rb
  | _ => .compareUnassigned rc rb

/-- The sub-functions of `logic.i64`, selected by fun3 (R61). -/
def decodeLogic (rc rb : Reg) (fun3 : BitVec 3) : Instr :=
  match fun3.toNat with
  | 0 => .logicMov rc rb
  | 1 => .logicNot rc rb
  | 2 => .logicNeg rc rb
  | 3 => .logicBswap rc rb
  | 4 => .logicCtz rc rb
  | 5 => .logicClz rc rb
  | 6 => .logicCtpop rc rb
  | _ => .logicSext rc rb

/-- The instruction of a packet whose size field is 00, by its opcode (R60, R64). -/
def decodeShort (w : Packet) : Instr :=
  let rc := regOfBits (fieldRc w)
  let rb := regOfBits (fieldRb w)
  let ra := regOfBits (fieldRa w)
  let uimm9 := (fieldImm9 w).toNat
  let simm9 := (fieldImm9 w).toInt
  let uimm6 := (fieldImm6 w).toNat
  let simm6 := (fieldImm6 w).toInt
  let uimm3 := (fieldRa w).toNat
  match (fieldOpcode w).toNat with
  | 0 => .brk uimm9
  | 1 => .j simm9
  | 2 => .b simm9
  | 3 => .ibj simm9
  | 4 => .jalib rc uimm6
  | 5 => .jtlib rc uimm6
  | 6 => .movib rc uimm6
  | 7 => .movi rc simm6
  | 8 => .addi rc simm6
  | 9 => .srli rc uimm6
  | 10 => .srai rc uimm6
  | 11 => .slli rc uimm6
  | 12 => .addib rc uimm6
  | 13 => .leapc rc uimm6
  | 14 => .loadpc rc uimm6
  | 15 => .storepc rc uimm6
  | 16 => .load rc rb uimm3
  | 17 => .store rc rb uimm3
  | 18 => decodeCompare rc rb (fieldRa w)
  | 19 => decodeLogic rc rb (fieldRa w)
  | 20 => .pin rc rb ra
  | 21 => .and rc rb ra
  | 22 => .or rc rb ra
  | 23 => .xor rc rb ra
  | 24 => .add rc rb ra
  | 25 => .srl rc rb ra
  | 26 => .sra rc rb ra
  | 27 => .sll rc rb ra
  | 28 => .sub rc rb ra
  | 29 => .mul rc rb ra
  | 30 => .div rc rb ra
  | _ => .illegal uimm9

/-- Decoding one packet: R64, total on all 65536 values. Bits 15:2 of a packet whose size field is not 00 are never read as
a 16-bit instruction (R58). -/
def decodePacket (w : Packet) : Except DecodeError Instr :=
  match longLength (fieldSz w) with
  | none => .ok (decodeShort w)
  | some l => .error (.longForm l)

/-- A packet from its two bytes: little-endian, the byte at the lower address first (R35, R39). -/
def packetOfBytes (lo hi : Byte) : Packet := hi ++ lo

/-- The byte of a packet at the lower address (R35). -/
def packetLoByte (w : Packet) : Byte := w.extractLsb' 0 8

/-- The byte of a packet at the higher address (R35). -/
def packetHiByte (w : Packet) : Byte := w.extractLsb' 8 8

/-- Decoding bytes in address order: the instruction of the first packet and the bytes after it. Total on any list. -/
def decode (bytes : List Byte) : Except DecodeError (Instr × List Byte) :=
  match bytes with
  | lo :: hi :: rest =>
    match decodePacket (packetOfBytes lo hi) with
    | .ok i => .ok (i, rest)
    | .error e => .error e
  | _ => .error .truncated

/-! ## The encoder (R65) -/

/-- The number of a register, as its 3-bit field holds it (R14). -/
def regBits (r : Reg) : BitVec 3 :=
  match r with
  | .r0 => 0
  | .r1 => 1
  | .r2 => 2
  | .r3 => 3
  | .r4 => 4
  | .r5 => 5
  | .r6 => 6
  | .r7 => 7

/-- Form I9: `imm9 ++ opcode ++ 00` (R54). -/
def packI9 (imm9 : BitVec 9) (opcode : BitVec 5) : Packet := imm9 ++ opcode ++ 0b00#2

/-- Form R1I6: `rc ++ imm6 ++ opcode ++ 00` (R54). -/
def packR1I6 (rc : Reg) (imm6 : BitVec 6) (opcode : BitVec 5) : Packet := regBits rc ++ imm6 ++ opcode ++ 0b00#2

/-- Form R2I3: `rc ++ rb ++ imm3 ++ opcode ++ 00` (R54). -/
def packR2I3 (rc rb : Reg) (imm3 : BitVec 3) (opcode : BitVec 5) : Packet :=
  regBits rc ++ regBits rb ++ imm3 ++ opcode ++ 0b00#2

/-- Form R3: `rc ++ rb ++ ra ++ opcode ++ 00` (R54). -/
def packR3 (rc rb ra : Reg) (opcode : BitVec 5) : Packet :=
  regBits rc ++ regBits rb ++ regBits ra ++ opcode ++ 0b00#2

/-- The packet of an instruction; negative immediates are taken modulo 2^9 or 2^6 (R65). -/
def encode (i : Instr) : Packet :=
  match i with
  | .brk u => packI9 (BitVec.ofNat 9 u) 0b00000
  | .j z => packI9 (BitVec.ofInt 9 z) 0b00001
  | .b z => packI9 (BitVec.ofInt 9 z) 0b00010
  | .ibj z => packI9 (BitVec.ofInt 9 z) 0b00011
  | .jalib rc u => packR1I6 rc (BitVec.ofNat 6 u) 0b00100
  | .jtlib rc u => packR1I6 rc (BitVec.ofNat 6 u) 0b00101
  | .movib rc u => packR1I6 rc (BitVec.ofNat 6 u) 0b00110
  | .movi rc z => packR1I6 rc (BitVec.ofInt 6 z) 0b00111
  | .addi rc z => packR1I6 rc (BitVec.ofInt 6 z) 0b01000
  | .srli rc u => packR1I6 rc (BitVec.ofNat 6 u) 0b01001
  | .srai rc u => packR1I6 rc (BitVec.ofNat 6 u) 0b01010
  | .slli rc u => packR1I6 rc (BitVec.ofNat 6 u) 0b01011
  | .addib rc u => packR1I6 rc (BitVec.ofNat 6 u) 0b01100
  | .leapc rc u => packR1I6 rc (BitVec.ofNat 6 u) 0b01101
  | .loadpc rc u => packR1I6 rc (BitVec.ofNat 6 u) 0b01110
  | .storepc rc u => packR1I6 rc (BitVec.ofNat 6 u) 0b01111
  | .load rc rb u => packR2I3 rc rb (BitVec.ofNat 3 u) 0b10000
  | .store rc rb u => packR2I3 rc rb (BitVec.ofNat 3 u) 0b10001
  | .compareLt rc rb => packR2I3 rc rb 0 0b10010
  | .compareGe rc rb => packR2I3 rc rb 1 0b10010
  | .compareEq rc rb => packR2I3 rc rb 2 0b10010
  | .compareNe rc rb => packR2I3 rc rb 3 0b10010
  | .compareLtu rc rb => packR2I3 rc rb 4 0b10010
  | .compareGeu rc rb => packR2I3 rc rb 5 0b10010
  | .compareMov rc rb => packR2I3 rc rb 6 0b10010
  | .compareUnassigned rc rb => packR2I3 rc rb 7 0b10010
  | .logicMov rc rb => packR2I3 rc rb 0 0b10011
  | .logicNot rc rb => packR2I3 rc rb 1 0b10011
  | .logicNeg rc rb => packR2I3 rc rb 2 0b10011
  | .logicBswap rc rb => packR2I3 rc rb 3 0b10011
  | .logicCtz rc rb => packR2I3 rc rb 4 0b10011
  | .logicClz rc rb => packR2I3 rc rb 5 0b10011
  | .logicCtpop rc rb => packR2I3 rc rb 6 0b10011
  | .logicSext rc rb => packR2I3 rc rb 7 0b10011
  | .pin rc rb ra => packR3 rc rb ra 0b10100
  | .and rc rb ra => packR3 rc rb ra 0b10101
  | .or rc rb ra => packR3 rc rb ra 0b10110
  | .xor rc rb ra => packR3 rc rb ra 0b10111
  | .add rc rb ra => packR3 rc rb ra 0b11000
  | .srl rc rb ra => packR3 rc rb ra 0b11001
  | .sra rc rb ra => packR3 rc rb ra 0b11010
  | .sll rc rb ra => packR3 rc rb ra 0b11011
  | .sub rc rb ra => packR3 rc rb ra 0b11100
  | .mul rc rb ra => packR3 rc rb ra 0b11101
  | .div rc rb ra => packR3 rc rb ra 0b11110
  | .illegal u => packI9 (BitVec.ofNat 9 u) 0b11111

/-- The bytes of an instruction in address order (R35, R39). -/
def encodeBytes (i : Instr) : List Byte := [packetLoByte (encode i), packetHiByte (encode i)]

/-! ## The host's view of the decoder -/

/-- The packet whose table bits are `w`: of the `nbits` bits given, every bit above them zero. -/
def tablePacket (nbits w : Nat) : Packet := BitVec.ofNat 16 (w % 2 ^ nbits)

/-- The instruction the decoder reads from an instruction whose bits are `w` (bit 0 the packet's bit 0, R51), laid out in
memory order and given to `decode`. -/
def decodeTableWord (nbits w : Nat) : Option Instr :=
  match decode [packetLoByte (tablePacket nbits w), packetHiByte (tablePacket nbits w)] with
  | .ok (i, _) => some i
  | .error _ => none

end Sys2Proof
end

