-- ==== Sys2Proof/Config.lean ====
section
/-! DEFINITION. Config.lean: what the platform fixes (spec/00_scope.md R8) and the free values. An `opaque` constant has no
body: nothing can be proved of its value, so a claim that mentions it holds whatever the value is. -/

namespace Sys2Proof

/-- What the platform's memory map allows at a byte: fetch X, constant read K, data read R, data write W, and whether a
device answers data accesses there (R8, R42, R43). -/
structure Perm where
  x : Bool
  k : Bool
  r : Bool
  w : Bool
  device : Bool
  deriving DecidableEq, Repr

/-- A run of `size` bytes from `base` with one permission. The platform's `MemMap` is a list of these; the first region that
holds an address decides (DESIGN CHOICE, notes/assumptions/5.md). -/
structure Region where
  base : Nat
  size : Nat
  perm : Perm
  deriving DecidableEq, Repr

/-- One data access that reached a device byte (R42, D35). -/
inductive DeviceEvent where
  /-- A 64-bit data read at an address. -/
  | read (a : Addr)
  /-- A 64-bit data write of a value at an address. -/
  | write (a : Addr) (v : Word)
  deriving DecidableEq, Repr

/-- The candidates for the open parameter `SEXT_W` (R117, D14). -/
inductive SextWidth where
  | w8 | w16 | w32
  deriving DecidableEq, Repr, Inhabited

namespace Config

/-- Half of `TRAP_VECTOR`, an open parameter (R8, D17). -/
opaque trapVectorHalf : BitVec 63

/-- `TRAP_VECTOR`: open, but even (R18). -/
def trapVector : Addr := trapVectorHalf ++ 0b0#1

/-- `SEXT_W`, the source width of `logic.i64 … sext`: open (R117, D14). -/
opaque sextWidth : SextWidth

/-- The value of a memory byte that neither the image nor the program has written: any value
(spec/93_implementation_defined.md section 3; notes/assumptions/6.md). -/
opaque initialByte : Addr → Byte

/-- The value a device byte answers a data read with, after the device accesses made so far: any value (R42, D35;
notes/assumptions/10.md). -/
opaque deviceByte : List DeviceEvent → Addr → Byte

/-- The bytes of padding an `.align` with a third argument emits, from the position, the exponent and that argument: open, since
the source names it `max` and says nothing of it (R145; notes/assumptions/29.md). No step of the machine uses it. -/
opaque alignMaxCount : Nat → Nat → Nat → Nat

/-- `RESET_PC`, an open even parameter (R27). DESIGN CHOICE (notes/assumptions/3.md): the common fixture of
spec/95_test_vectors.md. -/
def resetPc : Addr := 0x1000

/-- `RESET_IB`, an open parameter, a multiple of 64 (R27). DESIGN CHOICE (notes/assumptions/3.md), as `resetPc`. -/
def resetIb : Addr := 0x2000

end Config

namespace Perm

/-- `.text`: executable code, read-only (R43, R144). -/
def text : Perm := { x := true, k := false, r := true, w := false, device := false }

/-- `.const`: immediate blocks, read-only (R43, R144). -/
def const : Perm := { x := false, k := true, r := true, w := false, device := false }

/-- `.rodata`: read-only variables (R43, R144). -/
def rodata : Perm := { x := false, k := false, r := true, w := false, device := false }

/-- `.data` and `.bss`: read-write (R43, R144). -/
def data : Perm := { x := false, k := false, r := true, w := true, device := false }

/-- A byte of a device: data reads and writes reach the device (R42). -/
def mmio : Perm := { x := false, k := false, r := true, w := true, device := true }

/-- The ISA's one constraint on a map: a byte with X or K has no W (R43). -/
def legal (p : Perm) : Bool := !((p.x || p.k) && p.w)

end Perm

/-- The map at reset: `MemMap` is an open parameter (R8). DESIGN CHOICE (notes/assumptions/4.md): a page of code at
`RESET_PC`, a page of constants at `RESET_IB`, and read-write data in the rest of the 2^64 bytes. -/
def Config.resetMap : List Region :=
  [ { base := 0x1000, size := 0x1000, perm := Perm.text },
    { base := 0x2000, size := 0x1000, perm := Perm.const },
    { base := 0, size := 2 ^ 64, perm := Perm.data } ]

end Sys2Proof
end

