-- ==== Sys2Proof/Machine/State.lean ====
section
/-! DEFINITION. Machine/State.lean: the state of GLYPH-X (spec/10_state.md R13) as plain data, the reasons a step can stop,
and the state at reset. -/

namespace Sys2Proof.Machine

/-- The eight general registers (R14). -/
structure Regs where
  r0 : Word
  r1 : Word
  r2 : Word
  r3 : Word
  r4 : Word
  r5 : Word
  r6 : Word
  r7 : Word
  deriving DecidableEq, Repr

/-- The trap causes; their numbers are open, so they are an enumeration (R161, R162, D17). -/
inductive Cause where
  /-- `CAUSE_BREAK`: the debugger trap of `break`. -/
  | breakpoint
  /-- `CAUSE_ILLEGAL`: the illegal instruction trap. -/
  | illegalInstruction
  /-- `CAUSE_DIV0`: the divide by zero exception of `div`. -/
  | divideByZero
  deriving DecidableEq, Repr

/-- The bytes of memory that hold a value, by address, addresses strictly rising (`Memory.wf`). An address that is not
listed holds a free value, `Config.initialByte` (notes/assumptions/6.md). -/
abbrev Memory := List Host.Cell

/-- The state of the machine (R13, R26, R31, R168). `map` is the platform's `MemMap`, supplied with the loaded image and
never changed by a step (notes/assumptions/5.md); `devLog` is the model's own (notes/assumptions/10.md). -/
structure State where
  /-- `r0` .. `r7` (R14). -/
  regs : Regs
  /-- The address of the instruction being executed (R17). -/
  pc : Addr
  /-- The immediate base register (R20). -/
  ib : Addr
  /-- The predicate register (R23). -/
  flag : Bool
  /-- The program counter a trap saves (R26, R164). -/
  tpc : Addr
  /-- The cause a trap saves (R26, R164). -/
  tcause : Cause
  /-- The one flat address space (R31). -/
  mem : Memory
  /-- The platform's permissions (R43). -/
  map : List Region
  /-- The run has ended in a trap (R168, R183). -/
  trapped : Bool
  /-- The data accesses that reached device bytes, newest first (R42, D35). -/
  devLog : List DeviceEvent
  deriving DecidableEq, Repr

/-- Why a step stops. Each but the last is an `unspecified(<tag>)` condition of spec/93_implementation_defined.md section 1,
which the spec makes a fault of the model and never a trap (R10, R163). All are safe: hardware may go on where the model
stops (notes/assumptions/20.md). -/
inductive Fault where
  /-- Raised by the fetch: the two bytes at pc are not both fetchable (R39). Safe. -/
  | fetchOutsideMap
  /-- Raised by a data or constant access to a byte without the permission it needs, or to no memory (R36, R37, R38). Safe. -/
  | accessOutsideMap
  /-- Raised by store and storepc: a byte written is mapped and not writable (R37, R48). Safe. -/
  | storeToReadOnly
  /-- Raised by load, store, loadpc and storepc: the address is not a multiple of 8 (R41). Safe. -/
  | misalignedData
  /-- Raised by jalib and jtlib: the new pc is odd or the new ib no multiple of 64 (R18, R21). Safe. -/
  | misalignedTarget
  /-- Raised by a step after the run has ended: its outcome is Trapped(cause, tpc) (R168, R183). Safe. -/
  | trapped (cause : Cause) (tpc : Addr)
  deriving DecidableEq, Repr

/-- Why a step is refused. -/
inductive Refusal where
  /-- Raised by exec's arm for an instruction that has no meaning yet; no arm of this model does. Safe. -/
  | notModelled (mnemonic : String)
  deriving DecidableEq, Repr

/-- The machine right after reset: the launch state of R181. pc, ib and the map are the platform's; the values of the
registers, of flag, tpc and tcause are DESIGN CHOICES (notes/assumptions/1.md, 3.md, 4.md, 8.md). No image is loaded. -/
def State.reset : State where
  regs := { r0 := 0, r1 := 0, r2 := 0, r3 := 0, r4 := 0, r5 := 0, r6 := 0, r7 := 0 }
  pc := Config.resetPc
  ib := Config.resetIb
  flag := false
  tpc := 0
  tcause := .breakpoint
  mem := []
  map := Config.resetMap
  trapped := false
  devLog := []

end Sys2Proof.Machine
end

