-- ==== Sys2Proof/Machine/Ops.lean ====
section
/-! DEFINITION. Machine/Ops.lean: the named operations over registers and memory, taking a trap, and the fetch. -/

namespace Sys2Proof.Machine

/-- How a meaning, or a step, ends. -/
abbrev Result := Host.Outcome State Fault Refusal

/-! ## Registers (R14, R15) -/

/-- The contents of a general register in a register file. -/
def Regs.get (g : Regs) (r : Reg) : Word :=
  match r with
  | .r0 => g.r0
  | .r1 => g.r1
  | .r2 => g.r2
  | .r3 => g.r3
  | .r4 => g.r4
  | .r5 => g.r5
  | .r6 => g.r6
  | .r7 => g.r7

/-- The register file with one register replaced. -/
def Regs.set (g : Regs) (r : Reg) (v : Word) : Regs :=
  match r with
  | .r0 => { g with r0 := v }
  | .r1 => { g with r1 := v }
  | .r2 => { g with r2 := v }
  | .r3 => { g with r3 := v }
  | .r4 => { g with r4 := v }
  | .r5 => { g with r5 := v }
  | .r6 => { g with r6 := v }
  | .r7 => { g with r7 := v }

/-- Read a general register (R10 `r[i]`); none is hard-wired (R14). -/
def readReg (s : State) (r : Reg) : Word := s.regs.get r

/-- Write a general register (R10 `r[i] <- v`). -/
def writeReg (s : State) (r : Reg) (v : Word) : State := { s with regs := s.regs.set r v }

/-- Write the predicate register (R23). -/
def writeFlag (s : State) (b : Bool) : State := { s with flag := b }

/-- Advance normally: `pc <- pc + 2`, modulo 2^64 (R18, R19). -/
def advance (s : State) : State := { s with pc := s.pc + 2 }

/-- Write pc. -/
def setPc (s : State) (a : Addr) : State := { s with pc := a }

/-- Write ib. -/
def setIb (s : State) (a : Addr) : State := { s with ib := a }

/-! ## Traps (R164, R168) -/

/-- Trap entry (R164): the trapping instruction's address and the cause are saved, pc goes to the trap vector, and r0..r7,
ib, flag and memory keep their values (R165). The run has then ended (R168). There is no return from a trap (R168). -/
def takeTrap (s : State) (c : Cause) : State :=
  { s with tpc := s.pc, tcause := c, pc := Config.trapVector, trapped := true }

/-- The outcome of a run that has ended: Trapped(cause, tpc) (R168, R183). A trap is terminal: nothing is fetched from the
trap vector (D19; notes/assumptions/11.md). -/
def runEnded (s : State) : Option Fault := if s.trapped then some (.trapped s.tcause s.tpc) else none

/-- A packet the decoder gives no instruction for: the first packet of a longer instruction raises IllegalInstruction with
tpc = pc, and the packets after it are not looked at (R58, D16). -/
def takeUndecoded (s : State) : State := takeTrap s .illegalInstruction

/-! ## The memory map (R43) -/

/-- Does a region hold the address? -/
def Region.holds (g : Region) (a : Addr) : Bool := decide (g.base ≤ a.toNat) && decide (a.toNat < g.base + g.size)

/-- What the map allows at an address; `none` where there is no memory (R43). -/
def permAt (map : List Region) (a : Addr) : Option Perm := (map.find? (fun g => Region.holds g a)).map Region.perm

/-- May the byte be fetched? -/
def fetchable (map : List Region) (a : Addr) : Bool := (permAt map a).any Perm.x
/-- May the byte be read as a constant? -/
def constReadable (map : List Region) (a : Addr) : Bool := (permAt map a).any Perm.k
/-- May the byte be read as data? -/
def dataReadable (map : List Region) (a : Addr) : Bool := (permAt map a).any Perm.r
/-- May the byte be written as data? -/
def dataWritable (map : List Region) (a : Addr) : Bool := (permAt map a).any Perm.w
/-- Is there a byte at the address? -/
def mapped (map : List Region) (a : Addr) : Bool := (permAt map a).isSome
/-- Does a device answer data accesses to the byte (R42)? -/
def deviceAt (map : List Region) (a : Addr) : Bool := (permAt map a).any Perm.device

/-- Every region obeys the ISA's one constraint: a byte with X or K has no W (R43). -/
def mapLegal (map : List Region) : Bool := map.all (fun g => g.perm.legal)

/-- Does every one of the `n` bytes from `a` pass the test? Addresses wrap modulo 2^64. -/
def allBytes (n : Nat) (a : Addr) (test : Addr → Bool) : Bool :=
  (List.range n).all (fun k => test (a + BitVec.ofNat 64 k))

/-! ## Bytes of memory -/

/-- The value listed for an address, if there is one. -/
def Memory.lookup (m : Memory) (a : Nat) : Option Byte :=
  match m with
  | [] => none
  | (k, v) :: m => if k = a then some v else Memory.lookup m a

/-- Put a byte into a memory, keeping the addresses rising. -/
def Memory.put (m : Memory) (a : Nat) (b : Byte) : Memory :=
  match m with
  | [] => [(a, b)]
  | (k, v) :: m => if a < k then (a, b) :: (k, v) :: m else if a = k then (a, b) :: m else (k, v) :: Memory.put m a b

/-- The addresses from `lo` on rise strictly and are below 2^64. -/
def Memory.wfFrom (lo : Nat) (m : Memory) : Bool :=
  match m with
  | [] => true
  | (k, _) :: m => decide (lo ≤ k) && decide (k < 2 ^ 64) && Memory.wfFrom (k + 1) m

/-- The canonical form: addresses strictly rising and inside the address space. An unlisted address holds no written byte,
so no entry can repeat what it reads as. -/
def Memory.wf (m : Memory) : Bool := Memory.wfFrom 0 m

/-- What an address that is not listed reads as: a free value, the same at every read (R46, spec/93 section 3). -/
def unlistedByte (a : Addr) : Byte := Config.initialByte a

/-- The byte at an address: the latest write, or the initial contents (R46). -/
def readByte (s : State) (a : Addr) : Byte := (Memory.lookup s.mem a.toNat).getD (unlistedByte a)

/-- Replace the byte at an address. -/
def writeByte (s : State) (a : Addr) (b : Byte) : State := { s with mem := Memory.put s.mem a.toNat b }

/-- The four bytes at an address, little-endian (R35). -/
def read32 (s : State) (a : Addr) : BitVec 32 := readByte s (a + 3) ++ readByte s (a + 2) ++ readByte s (a + 1) ++ readByte s a

/-- The eight bytes at an address, little-endian (R35). -/
def read64 (s : State) (a : Addr) : Word := read32 s (a + 4) ++ read32 s a

/-! ## The four accesses (R36 to R39) -/

/-- `Fetch(pc)`: the 16-bit packet at pc, whose two bytes must be fetchable (R39). -/
def fetch (s : State) : Except Fault Packet :=
  if allBytes 2 s.pc (fetchable s.map) then .ok (packetOfBytes (readByte s s.pc) (readByte s (s.pc + 1)))
  else .error .fetchOutsideMap

/-- `ConstRead(a, 4)` (R38). -/
def constRead32 (s : State) (a : Addr) : Except Fault (BitVec 32) :=
  if allBytes 4 a (constReadable s.map) then .ok (read32 s a) else .error .accessOutsideMap

/-- `ConstRead(a, 8)` (R38). -/
def constRead64 (s : State) (a : Addr) : Except Fault Word :=
  if allBytes 8 a (constReadable s.map) then .ok (read64 s a) else .error .accessOutsideMap

/-- The byte a data read gets: a device byte is a free value, any other byte is memory (R42, D35). -/
def dataByte (s : State) (a : Addr) : Byte :=
  if deviceAt s.map a then Config.deviceByte s.devLog a else readByte s a

/-- The eight bytes a data read gets, little-endian (R35, R36). -/
def dataWord (s : State) (a : Addr) : Word :=
  dataByte s (a + 7) ++ dataByte s (a + 6) ++ dataByte s (a + 5) ++ dataByte s (a + 4) ++
    dataByte s (a + 3) ++ dataByte s (a + 2) ++ dataByte s (a + 1) ++ dataByte s a

/-- Does any of the eight bytes belong to a device? -/
def touchesDevice (map : List Region) (a : Addr) : Bool := !(allBytes 8 a (fun b => !(deviceAt map b)))

/-- Record a data access, if it reached a device (R42: each access is performed once, whole). -/
def recordAccess (s : State) (a : Addr) (e : DeviceEvent) : State :=
  if touchesDevice s.map a then { s with devLog := e :: s.devLog } else s

/-- Is a 64-bit data access aligned (R41)? -/
def aligned8 (a : Addr) : Bool := decide (a.toNat % 8 = 0)

/-- `MemRead(a, 8)` (R36): alignment first, then the permission of every byte (R166). The value, and the state after. -/
def memRead (s : State) (a : Addr) : Except Fault (Word × State) :=
  if !(aligned8 a) then .error .misalignedData
  else if !(allBytes 8 a (dataReadable s.map)) then .error .accessOutsideMap
  else .ok (dataWord s a, recordAccess s a (.read a))

/-- Write one byte of a data write: a byte of a device goes to the device and not to memory (R42). -/
def storeByte (s : State) (a : Addr) (b : Byte) : State :=
  if deviceAt s.map a then s else writeByte s a b

/-- The byte of a value that lies `k` bytes above the lowest address (R37: `v[8k+7 : 8k]`). -/
def byteOf (v : Word) (k : Nat) : Byte := v.extractLsb' (8 * k) 8

/-- Set byte(a + k) to `v[8k+7 : 8k]` for the `n` lowest bytes (R37). -/
def storeBytes (n : Nat) (s : State) (a : Addr) (v : Word) : State :=
  match n with
  | 0 => s
  | n + 1 => storeByte (storeBytes n s a v) (a + BitVec.ofNat 64 n) (byteOf v n)

/-- `MemWrite(a, 8, v)` (R37): alignment first, then that every byte is mapped, then that every byte is writable (R166;
notes/assumptions/12.md). -/
def memWrite (s : State) (a : Addr) (v : Word) : Except Fault State :=
  if !(aligned8 a) then .error .misalignedData
  else if !(allBytes 8 a (mapped s.map)) then .error .accessOutsideMap
  else if !(allBytes 8 a (dataWritable s.map)) then .error .storeToReadOnly
  else .ok (recordAccess (storeBytes 8 s a v) a (.write a v))

/-! ## Loading a packet from outside (notes/assumptions/13.md) -/

/-- Make one byte fetchable and, as R43 asks of such a byte, not writable; nothing if it is fetchable already. -/
def grantFetch (map : List Region) (a : Addr) : List Region :=
  if fetchable map a then map
  else
    let p := (permAt map a).getD { x := false, k := false, r := false, w := false, device := false }
    { base := a.toNat, size := 1, perm := { p with x := true, w := false } } :: map

/-- The platform's loading of one packet at pc, ready to be fetched: its two bytes, the permission to fetch them, and a run
that has not ended. -/
def loadPacketAtPc (s : State) (w : Packet) : State :=
  let t := writeByte (writeByte s s.pc (packetLoByte w)) (s.pc + 1) (packetHiByte w)
  { t with map := grantFetch (grantFetch t.map t.pc) (t.pc + 1), trapped := false }

end Sys2Proof.Machine
end

