-- ==== Sys2Proof/Machine/Operands.lean ====
section
/-! DEFINITION. Machine/Operands.lean: the operand forms (spec/30_encoding.md R56, spec/42_memory_access.md R95): immediates,
effective addresses, branch displacements and the lanes of a relative address vector. -/

namespace Sys2Proof.Machine

/-! ## Immediates (R56) -/

/-- A signed immediate extended to 64 bits. -/
def simm (z : Int) : Word := BitVec.ofInt 64 z

/-- A count or an offset as a 64-bit value. -/
def uimm (n : Nat) : Word := BitVec.ofNat 64 n

/-- `sext_32` (R9). -/
def sext32 (v : BitVec 32) : Word := v.signExtend 64

/-! ## Effective addresses (R95) -/

/-- `ib64(n)`: `ib + n × 8` (R33). -/
def ib64Addr (s : State) (n : Nat) : Addr := s.ib + uimm n * 8

/-- `ib32(n)`: `ib + n × 4` (R33). -/
def ib32Addr (s : State) (n : Nat) : Addr := s.ib + uimm n * 4

/-- The 64-bit constant of jalib, jtlib and movib (R32). -/
def ib64Const (s : State) (n : Nat) : Except Fault Word := constRead64 s (ib64Addr s n)

/-- The 32-bit constant of addib, leapc, loadpc and storepc, sign-extended (R32, R95). -/
def ib32Const (s : State) (n : Nat) : Except Fault Word :=
  match constRead32 s (ib32Addr s n) with
  | .ok c => .ok (sext32 c)
  | .error f => .error f

/-- `pc + sext_32(constant)`, pc the instruction's own address, with no "+ 2" (R17, R90 to R92). -/
def pcRelAddr (s : State) (n : Nat) : Except Fault Addr :=
  match ib32Const s n with
  | .ok c => .ok (s.pc + c)
  | .error f => .error f

/-- `r[rb] + uimm3 × 8` (R93, R94). -/
def baseAddr (s : State) (rb : Reg) (n : Nat) : Addr := readReg s rb + uimm n * 8

/-- The target of j and of a taken b: `pc + simm9 × 2 + 2` (R71, R72). -/
def branchTarget (s : State) (z : Int) : Addr := s.pc + simm z * 2 + 2

/-- The target of ibj: `ib + simm9 × 64` (R73). -/
def blockTarget (s : State) (z : Int) : Addr := s.ib + simm z * 64

/-! ## Relative address vectors (R10) -/

/-- Lane 0, `v[31:0]`: the pc displacement (R10, D5). -/
def lane0 (v : Word) : BitVec 32 := v.extractLsb' 0 32

/-- Lane 1, `v[63:32]`: the ib displacement (R10, D5). -/
def lane1 (v : Word) : BitVec 32 := v.extractLsb' 32 32

/-- `pack(a, b)`: lane 0 is `a`, lane 1 is `b` (R10). -/
def packLanes (a b : BitVec 32) : Word := b ++ a

/-- The low 32 bits of a difference, `<i32>(e)` (R11, D38). -/
def low32 (v : Word) : BitVec 32 := v.extractLsb' 0 32

/-- May (pc, ib) become this pair: pc even, ib a multiple of 64 (R18, R21)? -/
def targetAligned (npc nib : Addr) : Bool := decide (npc.toNat % 2 = 0) && decide (nib.toNat % 64 = 0)

/-- Move (pc, ib) together; a misaligned pair is `unspecified(MisalignedTarget)` (R74, R75, D7). -/
def transfer (s : State) (npc nib : Addr) : Result :=
  if targetAligned npc nib then .next (setPc (setIb s nib) npc) else .fault .misalignedTarget

end Sys2Proof.Machine
end

