-- ==== Sys2Proof/Machine/Alu.lean ====
section
/-! DEFINITION. Machine/Alu.lean: the 64-bit functions of the logic and three-register instructions
(spec/43_compare_logic.md R109 to R117, spec/44_arith.md R120 to R132). No flag is written by any of them (R23). -/

namespace Sys2Proof.Machine

/-- Write a result to rc and advance: how every instruction that only computes a register ends (R15). -/
def setRegNext (s : State) (rc : Reg) (v : Word) : Result := .next (advance (writeReg s rc v))

/-! ## Shifts (R83 to R85, R125 to R127) -/

/-- Logical right shift: `unsigned(v) div 2^n`. -/
def shiftRightLogical (v : Word) (n : Nat) : Word := v >>> n

/-- Arithmetic right shift: `floor(signed(v) / 2^n)`. -/
def shiftRightArith (v : Word) (n : Nat) : Word := v.sshiftRight n

/-- Left shift: `(v * 2^n) mod 2^64`. -/
def shiftLeft (v : Word) (n : Nat) : Word := v <<< n

/-- A register shift count: bits 5:0, the others ignored (R125, D11). -/
def shiftCount (v : Word) : Nat := (v.extractLsb' 0 6).toNat

/-! ## Logic (R110 to R117) -/

/-- The order of the eight bytes reversed (R113). -/
def byteSwap (v : Word) : Word :=
  byteOf v 0 ++ byteOf v 1 ++ byteOf v 2 ++ byteOf v 3 ++ byteOf v 4 ++ byteOf v 5 ++ byteOf v 6 ++ byteOf v 7

/-- The number of consecutive 0 bits starting at bit 0 and going up; 64 for zero (R114, D13). -/
def countTrailingZeros (v : Word) : Nat := ((List.range 64).takeWhile (fun i => !(v.getLsbD i))).length

/-- The number of consecutive 0 bits starting at bit 63 and going down; 64 for zero (R115, D13). -/
def countLeadingZeros (v : Word) : Nat := ((List.range 64).takeWhile (fun i => !(v.getLsbD (63 - i)))).length

/-- The number of bits that are 1 (R116). -/
def countPopulation (v : Word) : Nat := (List.range 64).countP (fun i => v.getLsbD i)

/-- Sign extension from a given source width (R117). -/
def signExtendFrom (w : SextWidth) (v : Word) : Word :=
  match w with
  | .w8 => (v.extractLsb' 0 8).signExtend 64
  | .w16 => (v.extractLsb' 0 16).signExtend 64
  | .w32 => (v.extractLsb' 0 32).signExtend 64

/-! ## Arithmetic (R120, R129, R130) -/

/-- The product's low 64 bits, computed exactly and then narrowed (R129, D33). -/
def mulLow (a b : Word) : Word := BitVec.ofInt 64 (a.toInt * b.toInt)

/-- The signed quotient rounded toward zero, narrowed: −2^63 / −1 wraps to −2^63 (R130, D12). -/
def divSigned (a b : Word) : Word := BitVec.ofInt 64 (Int.tdiv a.toInt b.toInt)

/-- The vector pin packs: `pc + 2 − r[ra]` and `ib − r[rb]`, each cut to its low 32 bits (R120, D38). -/
def pinVector (s : State) (targetIb targetPc : Word) : Word :=
  packLanes (low32 (s.pc + 2 - targetPc)) (low32 (s.ib - targetIb))

end Sys2Proof.Machine
end

