-- ==== Sys2Proof/Machine/Arith.lean ====
section
/-! DEFINITION. Machine/Arith.lean: three-register instructions and `illegal` (spec/44_arith.md R120 to R131). -/

namespace Sys2Proof.Machine

/-- `pin.i64 rc, rb, ra`: ra the absolute target pc, rb the absolute target ib (R120). -/
def execPin (rc rb ra : Reg) (s : State) : Result := setRegNext s rc (pinVector s (readReg s rb) (readReg s ra))

/-- `and.i64 rc, rb, ra` (R121). -/
def execAnd (rc rb ra : Reg) (s : State) : Result := setRegNext s rc (readReg s rb &&& readReg s ra)

/-- `or.i64 rc, rb, ra` (R122). -/
def execOr (rc rb ra : Reg) (s : State) : Result := setRegNext s rc (readReg s rb ||| readReg s ra)

/-- `xor.i64 rc, rb, ra` (R123). -/
def execXor (rc rb ra : Reg) (s : State) : Result := setRegNext s rc (readReg s rb ^^^ readReg s ra)

/-- `add.i64 rc, rb, ra`: modulo 2^64 (R124). -/
def execAdd (rc rb ra : Reg) (s : State) : Result := setRegNext s rc (readReg s rb + readReg s ra)

/-- `srl.i64 rc, rb, ra` (R125). -/
def execSrl (rc rb ra : Reg) (s : State) : Result :=
  setRegNext s rc (shiftRightLogical (readReg s rb) (shiftCount (readReg s ra)))

/-- `sra.i64 rc, rb, ra` (R126). -/
def execSra (rc rb ra : Reg) (s : State) : Result :=
  setRegNext s rc (shiftRightArith (readReg s rb) (shiftCount (readReg s ra)))

/-- `sll.i64 rc, rb, ra` (R127). -/
def execSll (rc rb ra : Reg) (s : State) : Result :=
  setRegNext s rc (shiftLeft (readReg s rb) (shiftCount (readReg s ra)))

/-- `sub.i64 rc, rb, ra`: rb minus ra, modulo 2^64 (R128). -/
def execSub (rc rb ra : Reg) (s : State) : Result := setRegNext s rc (readReg s rb - readReg s ra)

/-- `mul.i64 rc, rb, ra` (R129). -/
def execMul (rc rb ra : Reg) (s : State) : Result := setRegNext s rc (mulLow (readReg s rb) (readReg s ra))

/-- `div.i64 rc, rb, ra`: a zero divisor raises DivideByZero, and rc keeps its value (R130, R165). -/
def execDiv (rc rb ra : Reg) (s : State) : Result :=
  if readReg s ra = 0 then .next (takeTrap s .divideByZero)
  else setRegNext s rc (divSigned (readReg s rb) (readReg s ra))

/-- `illegal uimm9`: the illegal instruction trap, whatever uimm9 is (R131, R63). -/
def execIllegal (_uimm9 : Nat) (s : State) : Result := .next (takeTrap s .illegalInstruction)

end Sys2Proof.Machine
end

