-- ==== Sys2Proof/Machine/Flags.lean ====
section
/-! DEFINITION. Machine/Flags.lean: the six comparisons that write `flag` (spec/43_compare_logic.md R99 to R105); rc is the
left operand and rb the right. There is no other flag (R24). -/

namespace Sys2Proof.Machine

/-- Less than, signed (R100). -/
def flagLt (a b : Word) : Bool := decide (a.toInt < b.toInt)

/-- Greater or equal, signed (R101). -/
def flagGe (a b : Word) : Bool := decide (b.toInt ≤ a.toInt)

/-- Equal, all 64 bits (R102). -/
def flagEq (a b : Word) : Bool := decide (a = b)

/-- Not equal (R103). -/
def flagNe (a b : Word) : Bool := decide (a ≠ b)

/-- Less than, unsigned (R104). -/
def flagLtu (a b : Word) : Bool := decide (a.toNat < b.toNat)

/-- Greater or equal, unsigned (R105). -/
def flagGeu (a b : Word) : Bool := decide (b.toNat ≤ a.toNat)

/-- Write a comparison's result to `flag` and advance; no general register changes (R99). -/
def setFlagNext (s : State) (b : Bool) : Result := .next (advance (writeFlag s b))

end Sys2Proof.Machine
end

