-- ==== Sys2Proof/Machine/Compare.lean ====
section
/-! DEFINITION. Machine/Compare.lean: the sub-functions of `compare.i64` (spec/43_compare_logic.md R99 to R107). -/

namespace Sys2Proof.Machine

/-- `compare.i64 rc, rb, lt` (R100). -/
def execCompareLt (rc rb : Reg) (s : State) : Result := setFlagNext s (flagLt (readReg s rc) (readReg s rb))

/-- `compare.i64 rc, rb, ge` (R101). -/
def execCompareGe (rc rb : Reg) (s : State) : Result := setFlagNext s (flagGe (readReg s rc) (readReg s rb))

/-- `compare.i64 rc, rb, eq` (R102). -/
def execCompareEq (rc rb : Reg) (s : State) : Result := setFlagNext s (flagEq (readReg s rc) (readReg s rb))

/-- `compare.i64 rc, rb, ne` (R103). -/
def execCompareNe (rc rb : Reg) (s : State) : Result := setFlagNext s (flagNe (readReg s rc) (readReg s rb))

/-- `compare.i64 rc, rb, ltu` (R104). -/
def execCompareLtu (rc rb : Reg) (s : State) : Result := setFlagNext s (flagLtu (readReg s rc) (readReg s rb))

/-- `compare.i64 rc, rb, geu` (R105). -/
def execCompareGeu (rc rb : Reg) (s : State) : Result := setFlagNext s (flagGeu (readReg s rc) (readReg s rb))

/-- `compare.i64 rc, rb, mov`, the conditional move: rc is written only when flag = 1; flag is not written (R106). -/
def execCompareMov (rc rb : Reg) (s : State) : Result :=
  if s.flag then setRegNext s rc (readReg s rb) else .next (advance s)

/-- `compare.i64` with fun3 = 7: IllegalInstruction (R107, D15). -/
def execCompareUnassigned (_rc _rb : Reg) (s : State) : Result := .next (takeTrap s .illegalInstruction)

end Sys2Proof.Machine
end

