-- ==== Sys2Proof/Machine/Control.lean ====
section
/-! DEFINITION. Machine/Control.lean: control transfer (spec/40_control.md R70 to R75). -/

namespace Sys2Proof.Machine

/-- `break uimm9`: the debugger trap, whatever uimm9 is (R70, R63). -/
def execBrk (_uimm9 : Nat) (s : State) : Result := .next (takeTrap s .breakpoint)

/-- `j simm9×2`: `pc <- pc + simm9 × 2 + 2` (R71). -/
def execJ (simm9 : Int) (s : State) : Result := .next (setPc s (branchTarget s simm9))

/-- `b simm9×2`: as `j` when flag = 1, else advance (R72). -/
def execB (simm9 : Int) (s : State) : Result :=
  if s.flag then .next (setPc s (branchTarget s simm9)) else .next (advance s)

/-- `ibj simm9×64`: `ib <- ib + simm9 × 64` and advance (R73). -/
def execIbj (simm9 : Int) (s : State) : Result := .next (advance (setIb s (blockTarget s simm9)))

/-- `jalib.i64 rc, ib64(uimm6)`, the call: the constant's lanes are added to (pc + 2, ib), and the constant itself is the
link (R74). The target check comes before any write. -/
def execJalib (rc : Reg) (uimm6 : Nat) (s : State) : Result :=
  match ib64Const s uimm6 with
  | .error f => .fault f
  | .ok tmp => transfer (writeReg s rc tmp) (s.pc + sext32 (lane0 tmp) + 2) (s.ib + sext32 (lane1 tmp))

/-- `jtlib.i64 rc, ib64(uimm6)`, the return: the link vector is subtracted from the constant lane by lane in 32 bits, and the
differences are added to (pc, ib), with no "+ 2" (R75, D6). -/
def execJtlib (rc : Reg) (uimm6 : Nat) (s : State) : Result :=
  match ib64Const s uimm6 with
  | .error f => .fault f
  | .ok tmp =>
    let lnk := readReg s rc
    transfer s (s.pc + sext32 (lane0 tmp - lane0 lnk)) (s.ib + sext32 (lane1 tmp - lane1 lnk))

end Sys2Proof.Machine
end

