-- ==== Sys2Proof/Machine/Immediate.lean ====
section
/-! DEFINITION. Machine/Immediate.lean: one register with an immediate or a constant (spec/41_immediate.md R80 to R86). -/

namespace Sys2Proof.Machine

/-- `movib.i64 rc, ib64(uimm6)`: a 64-bit constant (R80). -/
def execMovib (rc : Reg) (uimm6 : Nat) (s : State) : Result :=
  match ib64Const s uimm6 with
  | .error f => .fault f
  | .ok c => setRegNext s rc c

/-- `movi.i64 rc, simm6` (R81). -/
def execMovi (rc : Reg) (simm6 : Int) (s : State) : Result := setRegNext s rc (simm simm6)

/-- `addi.i64 rc, simm6`: modulo 2^64 (R82). -/
def execAddi (rc : Reg) (simm6 : Int) (s : State) : Result := setRegNext s rc (readReg s rc + simm simm6)

/-- `srli.i64 rc, uimm6`: zeros enter at the left (R83). -/
def execSrli (rc : Reg) (uimm6 : Nat) (s : State) : Result := setRegNext s rc (shiftRightLogical (readReg s rc) uimm6)

/-- `srai.i64 rc, uimm6`: the sign enters at the left (R84). -/
def execSrai (rc : Reg) (uimm6 : Nat) (s : State) : Result := setRegNext s rc (shiftRightArith (readReg s rc) uimm6)

/-- `slli.i64 rc, uimm6`: zeros enter at the right (R85). -/
def execSlli (rc : Reg) (uimm6 : Nat) (s : State) : Result := setRegNext s rc (shiftLeft (readReg s rc) uimm6)

/-- `addib.i64 rc, ib32(uimm6)`: add a sign-extended 32-bit constant, modulo 2^64 (R86). -/
def execAddib (rc : Reg) (uimm6 : Nat) (s : State) : Result :=
  match ib32Const s uimm6 with
  | .error f => .fault f
  | .ok c => setRegNext s rc (readReg s rc + c)

end Sys2Proof.Machine
end

