-- ==== Sys2Proof/Machine/Logic.lean ====
section
/-! DEFINITION. Machine/Logic.lean: the sub-functions of `logic.i64` (spec/43_compare_logic.md R109 to R117). -/

namespace Sys2Proof.Machine

/-- `logic.i64 rc, rb, mov` (R110). -/
def execLogicMov (rc rb : Reg) (s : State) : Result := setRegNext s rc (readReg s rb)

/-- `logic.i64 rc, rb, not`: the bitwise complement (R111). -/
def execLogicNot (rc rb : Reg) (s : State) : Result := setRegNext s rc (~~~(readReg s rb))

/-- `logic.i64 rc, rb, neg`: modulo 2^64 (R112). -/
def execLogicNeg (rc rb : Reg) (s : State) : Result := setRegNext s rc (0 - readReg s rb)

/-- `logic.i64 rc, rb, bswap` (R113). -/
def execLogicBswap (rc rb : Reg) (s : State) : Result := setRegNext s rc (byteSwap (readReg s rb))

/-- `logic.i64 rc, rb, ctz` (R114). -/
def execLogicCtz (rc rb : Reg) (s : State) : Result := setRegNext s rc (uimm (countTrailingZeros (readReg s rb)))

/-- `logic.i64 rc, rb, clz` (R115). -/
def execLogicClz (rc rb : Reg) (s : State) : Result := setRegNext s rc (uimm (countLeadingZeros (readReg s rb)))

/-- `logic.i64 rc, rb, ctpop` (R116). -/
def execLogicCtpop (rc rb : Reg) (s : State) : Result := setRegNext s rc (uimm (countPopulation (readReg s rb)))

/-- `logic.i64 rc, rb, sext`: from the open source width `SEXT_W` (R117, D14). -/
def execLogicSext (rc rb : Reg) (s : State) : Result := setRegNext s rc (signExtendFrom Config.sextWidth (readReg s rb))

end Sys2Proof.Machine
end

