-- ==== Sys2Proof/Machine/MemoryAccess.lean ====
section
/-! DEFINITION. Machine/MemoryAccess.lean: address and memory-access instructions (spec/42_memory_access.md R90 to R94). -/

namespace Sys2Proof.Machine

/-- A 64-bit data read into rc, then advance (R36, R95). On a failed access rc is not written (R91). -/
def loadNext (s : State) (rc : Reg) (ea : Addr) : Result :=
  match memRead s ea with
  | .error f => .fault f
  | .ok (v, t) => setRegNext t rc v

/-- A 64-bit data write, then advance (R37, R95). -/
def storeNext (s : State) (ea : Addr) (v : Word) : Result :=
  match memWrite s ea v with
  | .error f => .fault f
  | .ok t => .next (advance t)

/-- `leapc.i64 rc, ib32(uimm6)(pc)`: the address alone, no access to it (R90). -/
def execLeapc (rc : Reg) (uimm6 : Nat) (s : State) : Result :=
  match pcRelAddr s uimm6 with
  | .error f => .fault f
  | .ok ea => setRegNext s rc ea

/-- `loadpc.i64 rc, ib32(uimm6)(pc)` (R91). -/
def execLoadpc (rc : Reg) (uimm6 : Nat) (s : State) : Result :=
  match pcRelAddr s uimm6 with
  | .error f => .fault f
  | .ok ea => loadNext s rc ea

/-- `storepc.i64 rc, ib32(uimm6)(pc)` (R92). -/
def execStorepc (rc : Reg) (uimm6 : Nat) (s : State) : Result :=
  match pcRelAddr s uimm6 with
  | .error f => .fault f
  | .ok ea => storeNext s ea (readReg s rc)

/-- `load.i64 rc, (uimm3×8)(rb)` (R93). -/
def execLoad (rc rb : Reg) (uimm3 : Nat) (s : State) : Result := loadNext s rc (baseAddr s rb uimm3)

/-- `store.i64 rc, (uimm3×8)(rb)`: rc is the value, although it comes first (R94). -/
def execStore (rc rb : Reg) (uimm3 : Nat) (s : State) : Result := storeNext s (baseAddr s rb uimm3) (readReg s rc)

end Sys2Proof.Machine
end

