-- ==== Sys2Proof/Machine/Step.lean ====
section
/-! DEFINITION. Machine/Step.lean: one step of the machine, and the platform's loading of one instruction. -/

namespace Sys2Proof.Machine

/-- One step: a run that has ended stays ended (R168); otherwise fetch, decode, execute (R166). -/
def step (s : State) : Host.Outcome State Fault Refusal :=
  match runEnded s with
  | some f => .fault f
  | none =>
    match fetch s with
    | .error f => .fault f
    | .ok w =>
      match decodePacket w with
      | .ok i => exec i s
      | .error _ => .next (takeUndecoded s)

/-- The state with the instruction whose table bits are `w` stored at pc, ready to be fetched (notes/assumptions/13.md). -/
def State.withFetchWord (s : State) (nbits w : Nat) : State := loadPacketAtPc s (tablePacket nbits w)

end Sys2Proof.Machine
end

