-- ==== Sys2Proof/Machine/Assembler.lean ====
section
/-! DEFINITION. Machine/Assembler.lean: the assembler's pseudo-instructions, relocations and constants, and the register roles
of the calling convention (spec/45_assembler_abi.md). Nothing here changes what the hardware does: every
pseudo-instruction is one of the instructions of Syntax.lean. -/

namespace Sys2Proof.Machine

/-! ## Register roles (R16, R156) -/

/-- The names of Table 3.3, its aliases among them: `fp` is the other name of `s0`. -/
inductive AbiName where
  | ib | sp | s0 | fp | s1 | s2 | t0 | a0 | a1 | ra
  deriving DecidableEq, Repr

/-- What a row of Table 3.3 names: the immediate base, or a general register. -/
inductive AbiPlace where
  | immediateBase
  | general (r : Reg)
  deriving DecidableEq, Repr

/-- The place an ABI name stands for. -/
def abiPlace (n : AbiName) : AbiPlace :=
  match n with
  | .ib => .immediateBase
  | .sp => .general .r0
  | .s0 => .general .r1
  | .fp => .general .r1
  | .s1 => .general .r2
  | .s2 => .general .r3
  | .t0 => .general .r4
  | .a0 => .general .r5
  | .a1 => .general .r6
  | .ra => .general .r7

/-- Callee-save (non-volatile) rows; the others are caller-save (R156). -/
def calleeSave (n : AbiName) : Bool :=
  match n with
  | .ib => true
  | .sp => true
  | .s0 => true
  | .fp => true
  | .s1 => true
  | .s2 => true
  | .t0 => false
  | .a0 => false
  | .a1 => false
  | .ra => false

/-- The 64-bit value in a place. -/
def placeValue (s : State) (p : AbiPlace) : Word :=
  match p with
  | .immediateBase => s.ib
  | .general r => readReg s r

/-- The link register of `call` and `ret`: by the ABI `ra` (R150, R156). -/
def linkReg : Reg := .r7

/-! ## Pseudo-instructions (R146) -/

/-- The pseudo-instructions of Table 3.2. `li` and `la` are the spec's illustrations (R149), `la` in both its forms; `call`
takes the two labels of the function and `ret` the function's entry and the ib it is entered with; their link register is
`ra` (R150). `slot` is the index of the constant the assembler allocates, 64-bit or 32-bit. -/
inductive Pseudo where
  | nop
  | li (rc : Reg) (value : Int) (slot : Nat)
  | laAbsolute (rc : Reg) (symbol : Addr) (slot : Nat)
  | laPcRelative (rc : Reg) (symbol : Addr) (slot : Nat)
  | call (textLabel constLabel : Addr) (slot : Nat)
  | ret (entry entryIb : Addr) (slot : Nat)
  | cmpLt (rc rb : Reg)
  | cmpGt (rc rb : Reg)
  | cmpLe (rc rb : Reg)
  | cmpGe (rc rb : Reg)
  | cmpEq (rc rb : Reg)
  | cmpNe (rc rb : Reg)
  | cmpLtu (rc rb : Reg)
  | cmpGtu (rc rb : Reg)
  | cmpLeu (rc rb : Reg)
  | cmpGeu (rc rb : Reg)
  | cmov (rc rb : Reg)
  | mov (rc rb : Reg)
  | not (rc rb : Reg)
  | neg (rc rb : Reg)
  | bswap (rc rb : Reg)
  | ctz (rc rb : Reg)
  | clz (rc rb : Reg)
  | ctpop (rc rb : Reg)
  | sext (rc rb : Reg)
  deriving DecidableEq, Repr

/-- The instruction a pseudo-instruction is assembled to (R146, R147, R149, R151). -/
def expand (p : Pseudo) : Instr :=
  match p with
  | .nop => .or .r0 .r0 .r0
  | .li rc v slot => if fitsSimm6 v then .movi rc v else .movib rc slot
  | .laAbsolute rc _ slot => .movib rc slot
  | .laPcRelative rc _ slot => .leapc rc slot
  | .call _ _ slot => .jalib linkReg slot
  | .ret _ _ slot => .jtlib linkReg slot
  | .cmpLt rc rb => .compareLt rc rb
  | .cmpGt rc rb => .compareLt rb rc
  | .cmpLe rc rb => .compareGe rb rc
  | .cmpGe rc rb => .compareGe rc rb
  | .cmpEq rc rb => .compareEq rc rb
  | .cmpNe rc rb => .compareNe rc rb
  | .cmpLtu rc rb => .compareLtu rc rb
  | .cmpGtu rc rb => .compareLtu rb rc
  | .cmpLeu rc rb => .compareGeu rb rc
  | .cmpGeu rc rb => .compareGeu rc rb
  | .cmov rc rb => .compareMov rc rb
  | .mov rc rb => .logicMov rc rb
  | .not rc rb => .logicNot rc rb
  | .neg rc rb => .logicNeg rc rb
  | .bswap rc rb => .logicBswap rc rb
  | .ctz rc rb => .logicCtz rc rb
  | .clz rc rb => .logicClz rc rb
  | .ctpop rc rb => .logicCtpop rc rb
  | .sext rc rb => .logicSext rc rb

/-! ## Relocations (R150) -/

/-- `ibcall-reloc(text-label, const-label)` for a jalib at `at_` executed with ib = `ib`:
(text-label − (at_ + 2), const-label − ib). A displacement must fit 32 signed bits (R77); that one which does not is cut to its
low 32 bits, and not refused, is a DESIGN CHOICE (notes/assumptions/25.md). -/
def callReloc (textLabel constLabel at_ ib : Addr) : Word :=
  packLanes (low32 (textLabel - (at_ + 2))) (low32 (constLabel - ib))

/-- `ibret-reloc(block-entry-label)` for a jtlib at `at_` executed with ib = `ib`: (entry − at_, entry ib − ib).
A displacement that does not fit 32 signed bits is cut, as in `callReloc` (DESIGN CHOICE, notes/assumptions/25.md). -/
def retReloc (entry entryIb at_ ib : Addr) : Word := packLanes (low32 (entry - at_)) (low32 (entryIb - ib))

/-! ## The constants the assembler allocates in `.const` (R149, R150) -/

/-- The 64-bit entry of `li` for a value that does not fit movi: the value modulo 2^64 (R149). -/
def liConstant (value : Int) : Word := BitVec.ofInt 64 value

/-- The 64-bit entry of the absolute `la`: the symbol's address (R149). -/
def laAbsoluteConstant (symbol : Addr) : Word := symbol

/-- The 32-bit entry of the position-independent `la` for a leapc at `at_`: symbol − at_, cut to the entry's 32 bits (R149). -/
def laPcRelativeConstant (symbol at_ : Addr) : BitVec 32 := low32 (symbol - at_)

/-- An entry of the immediate block: the index it is addressed by, and its value. -/
inductive ConstEntry where
  /-- At `ib64(slot)`. -/
  | quad (slot : Nat) (value : Word)
  /-- At `ib32(slot)`. -/
  | long (slot : Nat) (value : BitVec 32)
  deriving DecidableEq, Repr

/-- The constant a pseudo-instruction needs when its instruction is at `at_` and runs with ib = `ib`; none for those whose
operands are all in the packet (R146, R149, R150). -/
def allocated (p : Pseudo) (at_ ib : Addr) : Option ConstEntry :=
  match p with
  | .nop => none
  | .li _ v slot => if fitsSimm6 v then none else some (.quad slot (liConstant v))
  | .laAbsolute _ symbol slot => some (.quad slot (laAbsoluteConstant symbol))
  | .laPcRelative _ symbol slot => some (.long slot (laPcRelativeConstant symbol at_))
  | .call text const slot => some (.quad slot (callReloc text const at_ ib))
  | .ret entry entryIb slot => some (.quad slot (retReloc entry entryIb at_ ib))
  | .cmpLt _ _ => none
  | .cmpGt _ _ => none
  | .cmpLe _ _ => none
  | .cmpGe _ _ => none
  | .cmpEq _ _ => none
  | .cmpNe _ _ => none
  | .cmpLtu _ _ => none
  | .cmpGtu _ _ => none
  | .cmpLeu _ _ => none
  | .cmpGeu _ _ => none
  | .cmov _ _ => none
  | .mov _ _ => none
  | .not _ _ => none
  | .neg _ _ => none
  | .bswap _ _ => none
  | .ctz _ _ => none
  | .clz _ _ => none
  | .ctpop _ _ => none
  | .sext _ _ => none

end Sys2Proof.Machine
end

