-- ==== Sys2Proof/Safety.lean ====
section
/-! DEFINITION. Safety.lean: the terms claims are stated in: what stays unchanged (frames), the invariant of every state the
rules define, and the conditions under which a step is unspecified. -/

namespace Sys2Proof.Machine

/-! ## Frames -/

/-- Every general register keeps its value. -/
def SameRegs (s t : State) : Prop := ∀ r : Reg, readReg t r = readReg s r

/-- Every general register but `rc` keeps its value. -/
def SameRegsExcept (rc : Reg) (s t : State) : Prop := ∀ r : Reg, r ≠ rc → readReg t r = readReg s r

/-- Every byte of memory reads as before. -/
def SameMemory (s t : State) : Prop := ∀ a : Addr, readByte t a = readByte s a

/-- An address is one of the eight bytes from `ea`. -/
def InWord (ea a : Addr) : Prop := ∃ k : Nat, k < 8 ∧ a = ea + BitVec.ofNat 64 k

/-- Every byte of memory outside the eight from `ea` reads as before. -/
def SameMemoryExcept (ea : Addr) (s t : State) : Prop := ∀ a : Addr, ¬ InWord ea a → readByte t a = readByte s a

/-- The trap registers keep their values and the run has not ended meanwhile (R26, R168). -/
def SameTrapState (s t : State) : Prop := t.tpc = s.tpc ∧ t.tcause = s.tcause ∧ t.trapped = s.trapped

/-- The map and the record of device accesses are as before. -/
def SamePlatform (s t : State) : Prop := t.map = s.map ∧ t.devLog = s.devLog

/-- Only `rc` and pc may differ, and pc has advanced by 2: the frame of an instruction that only computes a register. -/
def OnlyRegWritten (rc : Reg) (s t : State) : Prop :=
  SameRegsExcept rc s t ∧ t.pc = s.pc + 2 ∧ t.ib = s.ib ∧ t.flag = s.flag ∧ SameTrapState s t ∧ SameMemory s t ∧
    SamePlatform s t

/-- Only `flag` and pc may differ, and pc has advanced by 2: the frame of a comparison. -/
def OnlyFlagWritten (s t : State) : Prop :=
  SameRegs s t ∧ t.pc = s.pc + 2 ∧ t.ib = s.ib ∧ SameTrapState s t ∧ SameMemory s t ∧ SamePlatform s t

/-- Only pc and ib may differ: the frame of a control transfer without link. -/
def OnlyTargetsWritten (s t : State) : Prop :=
  SameRegs s t ∧ t.flag = s.flag ∧ SameTrapState s t ∧ SameMemory s t ∧ SamePlatform s t

/-- Trap entry with cause `c`, exactly as R164 writes it: the saved pc and cause, pc at the vector, and r0..r7, ib, flag and
memory unchanged. -/
def TrapEntry (c : Cause) (s t : State) : Prop :=
  t.tpc = s.pc ∧ t.tcause = c ∧ t.pc = Config.trapVector ∧ SameRegs s t ∧ t.ib = s.ib ∧ t.flag = s.flag ∧ SameMemory s t

/-- Trap entry, and the model's record that the run has ended in it (R168; notes/assumptions/11.md). -/
def EntersTrap (c : Cause) (s t : State) : Prop := TrapEntry c s t ∧ t.trapped = true ∧ SamePlatform s t

/-! ## What memory and the map offer an instruction -/

/-- The packet `w` is the encoding of `i`, read both ways (R64, R65). -/
def EncodedAs (w : Packet) (i : Instr) : Prop := decodePacket w = .ok i ∧ encode i = w

/-- The `n` bytes from `a` may be read as constants (R38). -/
abbrev ConstReadableAt (s : State) (n : Nat) (a : Addr) : Prop :=
  ∀ k < n, constReadable s.map (a + BitVec.ofNat 64 k) = true

/-- The eight bytes from `a` may be read as data (R36). -/
abbrev DataReadableAt (s : State) (a : Addr) : Prop := ∀ k < 8, dataReadable s.map (a + BitVec.ofNat 64 k) = true

/-- The eight bytes from `a` exist (R37). -/
abbrev MappedAt (s : State) (a : Addr) : Prop := ∀ k < 8, mapped s.map (a + BitVec.ofNat 64 k) = true

/-- The eight bytes from `a` may be written as data (R37). -/
abbrev DataWritableAt (s : State) (a : Addr) : Prop := ∀ k < 8, dataWritable s.map (a + BitVec.ofNat 64 k) = true

/-- No device answers any of the eight bytes from `a` (R42). -/
abbrev PlainMemoryAt (s : State) (a : Addr) : Prop := ∀ k < 8, deviceAt s.map (a + BitVec.ofNat 64 k) = false

/-- The eight bytes from `a` are those of `v`, the least significant at `a` (R35). -/
abbrev Holds64 (s : State) (a : Addr) (v : Word) : Prop :=
  ∀ k < 8, readByte s (a + BitVec.ofNat 64 k) = v.extractLsb' (8 * k) 8

/-- The four bytes from `a` are those of `c`, the least significant at `a` (R35). -/
abbrev Holds32 (s : State) (a : Addr) (c : BitVec 32) : Prop :=
  ∀ k < 4, readByte s (a + BitVec.ofNat 64 k) = c.extractLsb' (8 * k) 8

/-- A difference of addresses that fits 32 signed bits. -/
abbrev Fits32 (d : Word) : Prop := -(2 ^ 31) ≤ d.toInt ∧ d.toInt < 2 ^ 31

/-- What a called function owes its caller: every callee-save row of Table 3.3 holds its value again, ib among them (R155,
R156). The caller-save registers, and `flag`, may differ (`flag`: PRESUMED by R156, notes/assumptions/15.md). -/
def KeepsCalleeSaved (s t : State) : Prop :=
  ∀ n : AbiName, calleeSave n = true → placeValue t (abiPlace n) = placeValue s (abiPlace n)

/-- The general register an instruction may write (R15). -/
def destination (i : Instr) : Option Reg :=
  match i with
  | .brk _ => none
  | .j _ => none
  | .b _ => none
  | .ibj _ => none
  | .jalib rc _ => some rc
  | .jtlib _ _ => none
  | .movib rc _ => some rc
  | .movi rc _ => some rc
  | .addi rc _ => some rc
  | .srli rc _ => some rc
  | .srai rc _ => some rc
  | .slli rc _ => some rc
  | .addib rc _ => some rc
  | .leapc rc _ => some rc
  | .loadpc rc _ => some rc
  | .storepc _ _ => none
  | .load rc _ _ => some rc
  | .store _ _ _ => none
  | .compareLt _ _ => none
  | .compareGe _ _ => none
  | .compareEq _ _ => none
  | .compareNe _ _ => none
  | .compareLtu _ _ => none
  | .compareGeu _ _ => none
  | .compareMov rc _ => some rc
  | .compareUnassigned _ _ => none
  | .logicMov rc _ => some rc
  | .logicNot rc _ => some rc
  | .logicNeg rc _ => some rc
  | .logicBswap rc _ => some rc
  | .logicCtz rc _ => some rc
  | .logicClz rc _ => some rc
  | .logicCtpop rc _ => some rc
  | .logicSext rc _ => some rc
  | .pin rc _ _ => some rc
  | .and rc _ _ => some rc
  | .or rc _ _ => some rc
  | .xor rc _ _ => some rc
  | .add rc _ _ => some rc
  | .srl rc _ _ => some rc
  | .sra rc _ _ => some rc
  | .sll rc _ _ => some rc
  | .sub rc _ _ => some rc
  | .mul rc _ _ => some rc
  | .div rc _ _ => some rc
  | .illegal _ => none

/-! ## The invariant of defined states -/

/-- pc is "aligned to 2 bytes" (R18). -/
def pcEven (s : State) : Prop := s.pc.toNat % 2 = 0

/-- ib is "aligned to 64 bytes" (R21). -/
def ibAligned (s : State) : Prop := s.ib.toNat % 64 = 0

/-- tpc "always holds an even address" (R26). -/
def tpcEven (s : State) : Prop := s.tpc.toNat % 2 = 0

/-- What holds in every state the rules define: the three alignments, a map without writable code or constants (R43), and
the canonical form of memory. -/
def StateInvariant (s : State) : Prop :=
  pcEven s ∧ ibAligned s ∧ tpcEven s ∧ mapLegal s.map = true ∧ Memory.wf s.mem = true

/-- A byte of instruction or constant memory (R31, R43). -/
def ReadOnlyByte (map : List Region) (a : Addr) : Prop := fetchable map a = true ∨ constReadable map a = true

/-- The immediate block holds the constant an assembled pseudo-instruction needs, readable, at its index (R33, R149, R150). -/
def EntryPresent (s : State) (e : Option ConstEntry) : Prop :=
  match e with
  | none => True
  | some (.quad slot v) =>
    ConstReadableAt s 8 (s.ib + BitVec.ofNat 64 (slot * 8)) ∧ Holds64 s (s.ib + BitVec.ofNat 64 (slot * 8)) v
  | some (.long slot v) =>
    ConstReadableAt s 4 (s.ib + BitVec.ofNat 64 (slot * 4)) ∧ Holds32 s (s.ib + BitVec.ofNat 64 (slot * 4)) v

/-! ## The unspecified conditions (spec/93_implementation_defined.md section 1, UnwrittenRegister left out) -/

/-- The constant `i` reads: how many bytes, at which offset from ib (R32). -/
def constantRead (i : Instr) : Option (Nat × Nat) :=
  match i with
  | .brk _ => none
  | .j _ => none
  | .b _ => none
  | .ibj _ => none
  | .jalib _ u => some (8, u * 8)
  | .jtlib _ u => some (8, u * 8)
  | .movib _ u => some (8, u * 8)
  | .movi _ _ => none
  | .addi _ _ => none
  | .srli _ _ => none
  | .srai _ _ => none
  | .slli _ _ => none
  | .addib _ u => some (4, u * 4)
  | .leapc _ u => some (4, u * 4)
  | .loadpc _ u => some (4, u * 4)
  | .storepc _ u => some (4, u * 4)
  | .load _ _ _ => none
  | .store _ _ _ => none
  | .compareLt _ _ => none
  | .compareGe _ _ => none
  | .compareEq _ _ => none
  | .compareNe _ _ => none
  | .compareLtu _ _ => none
  | .compareGeu _ _ => none
  | .compareMov _ _ => none
  | .compareUnassigned _ _ => none
  | .logicMov _ _ => none
  | .logicNot _ _ => none
  | .logicNeg _ _ => none
  | .logicBswap _ _ => none
  | .logicCtz _ _ => none
  | .logicClz _ _ => none
  | .logicCtpop _ _ => none
  | .logicSext _ _ => none
  | .pin _ _ _ => none
  | .and _ _ _ => none
  | .or _ _ _ => none
  | .xor _ _ _ => none
  | .add _ _ _ => none
  | .srl _ _ _ => none
  | .sra _ _ _ => none
  | .sll _ _ _ => none
  | .sub _ _ _ => none
  | .mul _ _ _ => none
  | .div _ _ _ => none
  | .illegal _ => none

/-- `i` reads a constant, and not every byte of it has the permission K (R38). -/
def ConstantUnreadable (s : State) (i : Instr) : Prop :=
  ∃ n off, constantRead i = some (n, off) ∧ ¬ ConstReadableAt s n (s.ib + BitVec.ofNat 64 off)

/-- `i` reads data at `ea`: load, or loadpc with a readable constant (R32, R95). -/
def ReadsDataAt (s : State) (i : Instr) (ea : Addr) : Prop :=
  (∃ rc rb u, i = .load rc rb u ∧ ea = readReg s rb + BitVec.ofNat 64 (u * 8)) ∨
    ∃ rc u c, i = .loadpc rc u ∧ ConstReadableAt s 4 (s.ib + BitVec.ofNat 64 (u * 4)) ∧
      Holds32 s (s.ib + BitVec.ofNat 64 (u * 4)) c ∧ ea = s.pc + c.signExtend 64

/-- `i` writes data at `ea`: store, or storepc with a readable constant (R32, R95). -/
def WritesDataAt (s : State) (i : Instr) (ea : Addr) : Prop :=
  (∃ rc rb u, i = .store rc rb u ∧ ea = readReg s rb + BitVec.ofNat 64 (u * 8)) ∨
    ∃ rc u c, i = .storepc rc u ∧ ConstReadableAt s 4 (s.ib + BitVec.ofNat 64 (u * 4)) ∧
      Holds32 s (s.ib + BitVec.ofNat 64 (u * 4)) c ∧ ea = s.pc + c.signExtend 64

/-- `i` would move (pc, ib) to this pair: jalib or jtlib with a readable constant (R74, R75). -/
def TransfersTo (s : State) (i : Instr) (npc nib : Addr) : Prop :=
  ∃ (rc : Reg) (u : Nat) (c : Word), ConstReadableAt s 8 (s.ib + BitVec.ofNat 64 (u * 8)) ∧
    Holds64 s (s.ib + BitVec.ofNat 64 (u * 8)) c ∧
    ((i = .jalib rc u ∧ npc = s.pc + (c.extractLsb' 0 32).signExtend 64 + 2 ∧
        nib = s.ib + (c.extractLsb' 32 32).signExtend 64) ∨
      (i = .jtlib rc u ∧ npc = s.pc + (c.extractLsb' 0 32 - (readReg s rc).extractLsb' 0 32).signExtend 64 ∧
        nib = s.ib + (c.extractLsb' 32 32 - (readReg s rc).extractLsb' 32 32).signExtend 64))

/-- The condition under which `i`, once fetched and decoded, is unspecified with the fault's tag: the conditions of section 1
of spec/93_implementation_defined.md in the order of R166, without UnwrittenRegister, on which the model never stops
(notes/assumptions/2.md). -/
def UnspecifiedWhen (s : State) (i : Instr) (f : Fault) : Prop :=
  match f with
  | .fetchOutsideMap => False
  | .accessOutsideMap =>
    ConstantUnreadable s i ∨
      (∃ ea, ReadsDataAt s i ea ∧ ea.toNat % 8 = 0 ∧ ¬ DataReadableAt s ea) ∨
      ∃ ea, WritesDataAt s i ea ∧ ea.toNat % 8 = 0 ∧ ¬ MappedAt s ea
  | .storeToReadOnly => ∃ ea, WritesDataAt s i ea ∧ ea.toNat % 8 = 0 ∧ MappedAt s ea ∧ ¬ DataWritableAt s ea
  | .misalignedData => ∃ ea, (ReadsDataAt s i ea ∨ WritesDataAt s i ea) ∧ ea.toNat % 8 ≠ 0
  | .misalignedTarget => ∃ npc nib, TransfersTo s i npc nib ∧ ¬ (npc.toNat % 2 = 0 ∧ nib.toNat % 64 = 0)
  | .trapped _ _ => False

end Sys2Proof.Machine
end

