-- ==== Sys2Proof/Certificates/Slice0/Obligations.lean ====
section
/-! DEFINITION. Certificates/Slice0/Obligations.lean: the statements for the provers. Each docstring names the rules of spec/
it formalises. `EncodedAs` clauses give the instruction's encoding as its rule writes it, `ccc bbb aaa ooooo 00`. -/

open Sys2Proof Sys2Proof.Machine

/-! ## Decoding and encoding -/

/-- Encoding is the inverse of decoding (R65): every well-formed instruction decodes from its packet, every operand at every
value the encoding admits. -/
def Obligations.DecodeOfEncode : Prop := ∀ i : Instr, wellFormed i = true → decodePacket (encode i) = .ok i

/-- Every packet that decodes is the packet of the instruction it decodes to, and the instruction is well-formed: every
operand bit of every form is a used field (R62 (c), R64). -/
def Obligations.EncodeOfDecode : Prop :=
  ∀ (w : Packet) (i : Instr), decodePacket w = .ok i → wellFormed i = true ∧ encode i = w

/-- The length is told from bits 1:0 of the first packet alone (R53, D26): 00 decodes to an instruction; 01, 10 and 11 announce
32, 64 and 128 bits. -/
def Obligations.SizeFieldTellsLength : Prop :=
  ∀ w : Packet,
    (w.extractLsb' 0 2 = 0b00 ↔ ∃ i, decodePacket w = .ok i) ∧
    (w.extractLsb' 0 2 = 0b01 ↔ decodePacket w = .error (.longForm .bits32)) ∧
    (w.extractLsb' 0 2 = 0b10 ↔ decodePacket w = .error (.longForm .bits64)) ∧
    (w.extractLsb' 0 2 = 0b11 ↔ decodePacket w = .error (.longForm .bits128))

/-- The examples of R65 and the corner cases of R62 (e), as packets. -/
def Obligations.ExamplePacketsDecode : Prop :=
  decodePacket 0b101_000000_00111_00 = .ok (.movi .r5 0) ∧ decodePacket 0b100_111111_01000_00 = .ok (.addi .r4 (-1)) ∧
    decodePacket 0b101_101_100_11000_00 = .ok (.add .r5 .r5 .r4) ∧ decodePacket 0b111111100_00010_00 = .ok (.b (-4)) ∧
    decodePacket 0b011_001_001_10000_00 = .ok (.load .r3 .r1 1) ∧ decodePacket 0x0058 = .ok (.or .r0 .r0 .r0) ∧
    decodePacket 0x0000 = .ok (.brk 0) ∧ decodePacket 0xFFFC = .ok (.illegal 511)

/-! ## Steps -/

/-- A step runs the decoded instruction: when the run has not ended, the two bytes at pc may be fetched, and they decode,
little-endian, to `i`, the step is `exec i`; the step itself adds nothing around it (R17, R39, R64, R166). -/
def Obligations.StepRunsDecodedInstruction : Prop :=
  ∀ (s : State) (i : Instr), s.trapped = false →
    fetchable s.map s.pc = true → fetchable s.map (s.pc + 1) = true →
    decodePacket (readByte s (s.pc + 1) ++ readByte s s.pc) = .ok i →
    step s = exec i s

/-- A fetch of bytes that are not both fetchable stops, before anything else is looked at (R39, R166). -/
def Obligations.FetchOutsideMapStops : Prop :=
  ∀ s : State, s.trapped = false → (fetchable s.map s.pc = false ∨ fetchable s.map (s.pc + 1) = false) →
    step s = .fault .fetchOutsideMap

/-- A packet at pc with sz ≠ 00 raises IllegalInstruction with tpc = pc; only the packet at pc is looked at (R58; the spec's
own decision D16, notes/assumptions/16.md). -/
def Obligations.LongPacketTraps : Prop :=
  ∀ s : State, s.trapped = false →
    fetchable s.map s.pc = true → fetchable s.map (s.pc + 1) = true →
    (readByte s s.pc).extractLsb' 0 2 ≠ 0b00 →
    ∃ t, step s = .next t ∧ EntersTrap .illegalInstruction s t

/-- A trap ends the run: no step follows it, and its outcome names the saved cause and pc (R168, R183; the record of the
end is the model's, notes/assumptions/11.md). -/
def Obligations.TrapEndsRun : Prop :=
  ∀ (s t : State) (c : Cause), EntersTrap c s t →
    step t = .fault (.trapped c s.pc) ∧ ∀ n : Nat, Sys2Proof.core.run (n + 1) t = .fault (.trapped c s.pc)

/-- No step is refused: every packet has a meaning. -/
def Obligations.NoStepIsRefused : Prop := ∀ (s : State) (r : Refusal), step s ≠ .refused r

/-! ## Control transfer (40_control.md) -/

/-- `break` (R70) and `illegal` (R131), for every uimm9: the debugger trap and the illegal instruction trap; 0x0000 is
`break 0`, and 0xFFFF is no `illegal`. What the entry saves and leaves (R164) is the spec's own decisions D17 and D18, and that
uimm9 is ignored (R63) its decision D29 (notes/assumptions/22.md). -/
def Obligations.BreakAndIllegalTakeTraps : Prop :=
  ∀ (u : Nat) (s : State),
    ((u < 512 → EncodedAs (BitVec.ofNat 9 u ++ 0b00000#5 ++ 0b00#2) (.brk u)) ∧ decodePacket 0x0000 = .ok (.brk 0) ∧
      ∃ t, exec (.brk u) s = .next t ∧ TrapEntry .breakpoint s t ∧ SamePlatform s t) ∧
    ((u < 512 → EncodedAs (BitVec.ofNat 9 u ++ 0b11111#5 ++ 0b00#2) (.illegal u)) ∧
      (∀ v, decodePacket 0xFFFF ≠ .ok (.illegal v)) ∧
      ∃ t, exec (.illegal u) s = .next t ∧ TrapEntry .illegalInstruction s t ∧ SamePlatform s t)

/-- `compare.i64` with fun3 = 7: the illegal instruction trap (R107; the spec's own decision D15, notes/assumptions/16.md). -/
def Obligations.UnassignedCompareTakesTrap : Prop :=
  ∀ (rc rb : Reg) (s : State),
    EncodedAs (regBits rc ++ regBits rb ++ 0b111#3 ++ 0b10010#5 ++ 0b00#2) (.compareUnassigned rc rb) ∧
    ∃ t, exec (.compareUnassigned rc rb) s = .next t ∧ EntersTrap .illegalInstruction s t

/-- The five ways to a trap, and no other (R161): with the packet `w` fetched, a step enters a trap with cause `c` exactly when
`w` is a `break`; an `illegal`, a compare with fun3 = 7 or a packet with sz ≠ 00 (the last two by the spec's own decisions
D15 and D16); or a `div` whose divisor is 0. -/
def Obligations.TrapsAreTheFive : Prop :=
  ∀ (s : State) (w : Packet) (c : Cause), s.trapped = false → fetch s = .ok w →
    ((∃ t, step s = .next t ∧ EntersTrap c s t) ↔
      match c with
      | .breakpoint => ∃ u, decodePacket w = .ok (.brk u)
      | .illegalInstruction =>
        (∃ u, decodePacket w = .ok (.illegal u)) ∨ (∃ rc rb, decodePacket w = .ok (.compareUnassigned rc rb)) ∨
          w.extractLsb' 0 2 ≠ 0b00
      | .divideByZero => ∃ rc rb ra, decodePacket w = .ok (.div rc rb ra) ∧ readReg s ra = 0)

/-- `j` (R71): pc + simm9 × 2 + 2 modulo 2^64 (the wrap is the spec's own decision D25, R19, notes/assumptions/22.md); an even
pc stays even, and nothing else changes. -/
def Obligations.JumpTarget : Prop :=
  ∀ (z : Int) (s : State),
    (-256 ≤ z → z ≤ 255 → EncodedAs (BitVec.ofInt 9 z ++ 0b00001#5 ++ 0b00#2) (.j z)) ∧
    ∃ t, exec (.j z) s = .next t ∧ t.pc = s.pc + BitVec.ofInt 64 (z * 2 + 2) ∧ (pcEven s → pcEven t) ∧ t.ib = s.ib ∧
      OnlyTargetsWritten s t

/-- `b` (R72): the jump when flag = 1, else pc + 2, modulo 2^64 (the wrap is the spec's own decision D25, R19,
notes/assumptions/22.md); flag is not changed. It runs on a flag that no compare has written too, the model's choice
(notes/assumptions/2.md). -/
def Obligations.BranchTestsFlag : Prop :=
  ∀ (z : Int) (s : State),
    (-256 ≤ z → z ≤ 255 → EncodedAs (BitVec.ofInt 9 z ++ 0b00010#5 ++ 0b00#2) (.b z)) ∧
    ∃ t, exec (.b z) s = .next t ∧
      (s.flag = true → t.pc = s.pc + BitVec.ofInt 64 (z * 2 + 2)) ∧ (s.flag = false → t.pc = s.pc + 2) ∧
      (pcEven s → pcEven t) ∧ t.ib = s.ib ∧ OnlyTargetsWritten s t

/-- `ibj` (R73): ib + simm9 × 64 modulo 2^64 (the wrap is the spec's own decision D25, R21, notes/assumptions/22.md), still a
multiple of 64; pc only advances. -/
def Obligations.ImmediateBlockJump : Prop :=
  ∀ (z : Int) (s : State),
    (-256 ≤ z → z ≤ 255 → EncodedAs (BitVec.ofInt 9 z ++ 0b00011#5 ++ 0b00#2) (.ibj z)) ∧
    ∃ t, exec (.ibj z) s = .next t ∧ t.ib = s.ib + BitVec.ofInt 64 (z * 64) ∧ (ibAligned s → ibAligned t) ∧
      t.pc = s.pc + 2 ∧ OnlyTargetsWritten s t

/-- `jalib.i64` (R74): with the constant `tmp` readable at ib + uimm6 × 8, its two sign-extended lanes are added to (pc + 2,
ib) and `tmp` is the link; a misaligned target (D7) and an unreadable constant stop with nothing written. Lane order and
widening are the spec's own decisions D5 and D37 (notes/assumptions/16.md). -/
def Obligations.JalibCalls : Prop :=
  ∀ (rc : Reg) (u : Nat) (s : State) (tmp : Word),
    (u < 64 → EncodedAs (regBits rc ++ BitVec.ofNat 6 u ++ 0b00100#5 ++ 0b00#2) (.jalib rc u)) ∧
    (ConstReadableAt s 8 (s.ib + BitVec.ofNat 64 (u * 8)) → Holds64 s (s.ib + BitVec.ofNat 64 (u * 8)) tmp →
      if (s.pc + (tmp.extractLsb' 0 32).signExtend 64 + 2).toNat % 2 = 0 ∧
          (s.ib + (tmp.extractLsb' 32 32).signExtend 64).toNat % 64 = 0 then
        ∃ t, exec (.jalib rc u) s = .next t ∧ readReg t rc = tmp ∧
          t.pc = s.pc + (tmp.extractLsb' 0 32).signExtend 64 + 2 ∧ t.ib = s.ib + (tmp.extractLsb' 32 32).signExtend 64 ∧
          SameRegsExcept rc s t ∧ t.flag = s.flag ∧ SameTrapState s t ∧ SameMemory s t ∧ SamePlatform s t
      else exec (.jalib rc u) s = .fault .misalignedTarget) ∧
    (¬ ConstReadableAt s 8 (s.ib + BitVec.ofNat 64 (u * 8)) → exec (.jalib rc u) s = .fault .accessOutsideMap)

/-- `jtlib.i64` (R75): the link vector is subtracted from the constant lane by lane modulo 2^32, each difference is
sign-extended and added to (pc, ib), with no "+ 2"; no general register is written. The arithmetic is the spec's own decision
D6 (notes/assumptions/16.md). -/
def Obligations.JtlibReturns : Prop :=
  ∀ (rc : Reg) (u : Nat) (s : State) (tmp : Word),
    (u < 64 → EncodedAs (regBits rc ++ BitVec.ofNat 6 u ++ 0b00101#5 ++ 0b00#2) (.jtlib rc u)) ∧
    (ConstReadableAt s 8 (s.ib + BitVec.ofNat 64 (u * 8)) → Holds64 s (s.ib + BitVec.ofNat 64 (u * 8)) tmp →
      if (s.pc + (tmp.extractLsb' 0 32 - (readReg s rc).extractLsb' 0 32).signExtend 64).toNat % 2 = 0 ∧
          (s.ib + (tmp.extractLsb' 32 32 - (readReg s rc).extractLsb' 32 32).signExtend 64).toNat % 64 = 0 then
        ∃ t, exec (.jtlib rc u) s = .next t ∧
          t.pc = s.pc + (tmp.extractLsb' 0 32 - (readReg s rc).extractLsb' 0 32).signExtend 64 ∧
          t.ib = s.ib + (tmp.extractLsb' 32 32 - (readReg s rc).extractLsb' 32 32).signExtend 64 ∧
          OnlyTargetsWritten s t
      else exec (.jtlib rc u) s = .fault .misalignedTarget) ∧
    (¬ ConstReadableAt s 8 (s.ib + BitVec.ofNat 64 (u * 8)) → exec (.jtlib rc u) s = .fault .accessOutsideMap)

/-- The call and return pairing (R77). A jalib at `s` went to (F, G), the pc and ib of `f`. At `u`, inside the function, the
link register still holds what jalib left, and the constant of a jtlib is (F − R, G − G'), R and G' the pc and ib of `u`,
each cut to 32 bits. If the way back from `u` to the caller fits 32 signed bits, the jtlib resumes after the call with the
caller's immediate block. R77 marks this as derived from R74 and R75. -/
def Obligations.ReturnResumesAfterCall : Prop :=
  ∀ (link : Reg) (i k : Nat) (s f u : State) (c : Word),
    pcEven s → ibAligned s → exec (.jalib link i) s = .next f → readReg u link = readReg f link →
    ConstReadableAt u 8 (u.ib + BitVec.ofNat 64 (k * 8)) → Holds64 u (u.ib + BitVec.ofNat 64 (k * 8)) c →
    c.extractLsb' 0 32 = (f.pc - u.pc).extractLsb' 0 32 → c.extractLsb' 32 32 = (f.ib - u.ib).extractLsb' 0 32 →
    Fits32 (s.pc + 2 - u.pc) → Fits32 (s.ib - u.ib) →
    ∃ t, exec (.jtlib link k) u = .next t ∧ t.pc = s.pc + 2 ∧ t.ib = s.ib ∧ OnlyTargetsWritten u t

/-- The indirect transfer (R78): `pin` and directly after it a `jtlib` with a zero constant go to the absolute (pc, ib) given
to pin, when both are aligned and within 32 signed bits of (pc + 2, ib). R78 marks this as derived from R75 and R120. -/
def Obligations.PinThenJtlibGoesToAbsoluteTarget : Prop :=
  ∀ (rc rb ra : Reg) (k : Nat) (s p : State),
    exec (.pin rc rb ra) s = .next p →
    ConstReadableAt p 8 (p.ib + BitVec.ofNat 64 (k * 8)) → Holds64 p (p.ib + BitVec.ofNat 64 (k * 8)) 0 →
    (readReg s ra).toNat % 2 = 0 → (readReg s rb).toNat % 64 = 0 →
    Fits32 (readReg s ra - (s.pc + 2)) → Fits32 (readReg s rb - s.ib) →
    ∃ t, exec (.jtlib rc k) p = .next t ∧ t.pc = readReg s ra ∧ t.ib = readReg s rb ∧ OnlyTargetsWritten p t

/-! ## One register with an immediate or a constant (41_immediate.md) -/

/-- `movib.i64` (R80): the 64-bit constant at ib + uimm6 × 8, little-endian, that address modulo 2^64 (the byte order and the
wrap are the spec's own decisions D4 and D25, notes/assumptions/22.md); an unreadable constant stops. -/
def Obligations.MovibLoadsConstant : Prop :=
  ∀ (rc : Reg) (u : Nat) (s : State) (c : Word),
    (u < 64 → EncodedAs (regBits rc ++ BitVec.ofNat 6 u ++ 0b00110#5 ++ 0b00#2) (.movib rc u)) ∧
    (ConstReadableAt s 8 (s.ib + BitVec.ofNat 64 (u * 8)) → Holds64 s (s.ib + BitVec.ofNat 64 (u * 8)) c →
      ∃ t, exec (.movib rc u) s = .next t ∧ readReg t rc = c ∧ OnlyRegWritten rc s t) ∧
    (¬ ConstReadableAt s 8 (s.ib + BitVec.ofNat 64 (u * 8)) → exec (.movib rc u) s = .fault .accessOutsideMap)

/-- `movi.i64` (R81): the sign-extended immediate, −32 .. 31. -/
def Obligations.MoviLoadsImmediate : Prop :=
  ∀ (rc : Reg) (z : Int) (s : State), -32 ≤ z → z ≤ 31 →
    EncodedAs (regBits rc ++ BitVec.ofInt 6 z ++ 0b00111#5 ++ 0b00#2) (.movi rc z) ∧
    ∃ t, exec (.movi rc z) s = .next t ∧ (readReg t rc).toInt = z ∧ OnlyRegWritten rc s t

/-- `addi.i64` (R82) and `logic.i64 neg` (R112): the sum with the sign-extended immediate, and 0 − r[rb], each reduced modulo
2^64 without a trap or a flag (the spec's own decision D10, notes/assumptions/16.md). -/
def Obligations.AddiAndNegateWrap : Prop :=
  ∀ (rc rb : Reg) (z : Int) (s : State),
    (-32 ≤ z → z ≤ 31 →
      EncodedAs (regBits rc ++ BitVec.ofInt 6 z ++ 0b01000#5 ++ 0b00#2) (.addi rc z) ∧
      ∃ t, exec (.addi rc z) s = .next t ∧ (readReg t rc).toInt = ((readReg s rc).toInt + z).bmod (2 ^ 64) ∧
        OnlyRegWritten rc s t) ∧
    (EncodedAs (regBits rc ++ regBits rb ++ 0b010#3 ++ 0b10011#5 ++ 0b00#2) (.logicNeg rc rb) ∧
      ∃ t, exec (.logicNeg rc rb) s = .next t ∧ (readReg t rc).toInt = (0 - (readReg s rb).toInt).bmod (2 ^ 64) ∧
        OnlyRegWritten rc s t)

/-- `srli.i64`, `srai.i64` and `slli.i64` (R83, R84, R85), for every count 0..63. That slli reduces modulo
2^64 is among what R132 (a) marks as the spec's own decision D10 (notes/assumptions/16.md). -/
def Obligations.ImmediateShifts : Prop :=
  ∀ (rc : Reg) (n : Nat) (s : State), n < 64 →
    (EncodedAs (regBits rc ++ BitVec.ofNat 6 n ++ 0b01001#5 ++ 0b00#2) (.srli rc n) ∧
      ∃ t, exec (.srli rc n) s = .next t ∧ (readReg t rc).toNat = (readReg s rc).toNat / 2 ^ n ∧ OnlyRegWritten rc s t) ∧
    (EncodedAs (regBits rc ++ BitVec.ofNat 6 n ++ 0b01010#5 ++ 0b00#2) (.srai rc n) ∧
      ∃ t, exec (.srai rc n) s = .next t ∧ (readReg t rc).toInt = (readReg s rc).toInt / 2 ^ n ∧ OnlyRegWritten rc s t) ∧
    (EncodedAs (regBits rc ++ BitVec.ofNat 6 n ++ 0b01011#5 ++ 0b00#2) (.slli rc n) ∧
      ∃ t, exec (.slli rc n) s = .next t ∧ (readReg t rc).toNat = (readReg s rc).toNat * 2 ^ n % 2 ^ 64 ∧
        OnlyRegWritten rc s t)

/-- `addib.i64` (R86): rc plus the sign-extended 32-bit constant at ib + uimm6 × 4, modulo 2^64 (the wrap is the spec's own
decision D10, R132, notes/assumptions/16.md). -/
def Obligations.AddibAddsConstant : Prop :=
  ∀ (rc : Reg) (u : Nat) (s : State) (c : BitVec 32),
    (u < 64 → EncodedAs (regBits rc ++ BitVec.ofNat 6 u ++ 0b01100#5 ++ 0b00#2) (.addib rc u)) ∧
    (ConstReadableAt s 4 (s.ib + BitVec.ofNat 64 (u * 4)) → Holds32 s (s.ib + BitVec.ofNat 64 (u * 4)) c →
      ∃ t, exec (.addib rc u) s = .next t ∧ (readReg t rc).toInt = ((readReg s rc).toInt + c.toInt).bmod (2 ^ 64) ∧
        OnlyRegWritten rc s t) ∧
    (¬ ConstReadableAt s 4 (s.ib + BitVec.ofNat 64 (u * 4)) → exec (.addib rc u) s = .fault .accessOutsideMap)

/-! ## Memory access (42_memory_access.md) -/

/-- `leapc.i64` (R90): the leapc's own address plus the sign-extended constant modulo 2^64 (the wrap is the spec's own
decision D10, R132 (a), notes/assumptions/16.md); nothing at the address is touched. -/
def Obligations.LeapcFormsAddress : Prop :=
  ∀ (rc : Reg) (u : Nat) (s : State) (c : BitVec 32),
    (u < 64 → EncodedAs (regBits rc ++ BitVec.ofNat 6 u ++ 0b01101#5 ++ 0b00#2) (.leapc rc u)) ∧
    (ConstReadableAt s 4 (s.ib + BitVec.ofNat 64 (u * 4)) → Holds32 s (s.ib + BitVec.ofNat 64 (u * 4)) c →
      ∃ t, exec (.leapc rc u) s = .next t ∧ readReg t rc = s.pc + BitVec.ofInt 64 c.toInt ∧ OnlyRegWritten rc s t) ∧
    (¬ ConstReadableAt s 4 (s.ib + BitVec.ofNat 64 (u * 4)) → exec (.leapc rc u) s = .fault .accessOutsideMap)

/-- `load.i64` (R93): the eight bytes at r[rb] + uimm3 × 8, little-endian, the base read before rc is written; a misaligned
address stops before the permissions are looked at (R166). A byte a device answers is a free value, and the access is then
recorded: the model's choice (notes/assumptions/10.md); every other effect is the same. The stop on a misaligned address is
the spec's own decision D8. -/
def Obligations.LoadReadsMemory : Prop :=
  ∀ (rc rb : Reg) (u : Nat) (s : State) (ea : Addr), ea = readReg s rb + BitVec.ofNat 64 (u * 8) →
    (u < 8 → EncodedAs (regBits rc ++ regBits rb ++ BitVec.ofNat 3 u ++ 0b10000#5 ++ 0b00#2) (.load rc rb u)) ∧
    (ea.toNat % 8 ≠ 0 → exec (.load rc rb u) s = .fault .misalignedData) ∧
    (ea.toNat % 8 = 0 → ¬ DataReadableAt s ea → exec (.load rc rb u) s = .fault .accessOutsideMap) ∧
    (ea.toNat % 8 = 0 → DataReadableAt s ea →
      ∃ t, exec (.load rc rb u) s = .next t ∧
        (∀ k < 8, deviceAt s.map (ea + BitVec.ofNat 64 k) = false →
          (readReg t rc).extractLsb' (8 * k) 8 = readByte s (ea + BitVec.ofNat 64 k)) ∧
        SameRegsExcept rc s t ∧ t.pc = s.pc + 2 ∧ t.ib = s.ib ∧ t.flag = s.flag ∧ SameTrapState s t ∧ SameMemory s t ∧
        t.map = s.map ∧ t.devLog = if PlainMemoryAt s ea then s.devLog else .read ea :: s.devLog)

/-- `loadpc.i64` (R91): as load, at the loadpc's own address plus the sign-extended 32-bit constant (devices:
notes/assumptions/10.md). -/
def Obligations.LoadpcReadsMemory : Prop :=
  ∀ (rc : Reg) (u : Nat) (s : State) (c : BitVec 32) (ea : Addr), ea = s.pc + c.signExtend 64 →
    (u < 64 → EncodedAs (regBits rc ++ BitVec.ofNat 6 u ++ 0b01110#5 ++ 0b00#2) (.loadpc rc u)) ∧
    (¬ ConstReadableAt s 4 (s.ib + BitVec.ofNat 64 (u * 4)) → exec (.loadpc rc u) s = .fault .accessOutsideMap) ∧
    (ConstReadableAt s 4 (s.ib + BitVec.ofNat 64 (u * 4)) → Holds32 s (s.ib + BitVec.ofNat 64 (u * 4)) c →
      (ea.toNat % 8 ≠ 0 → exec (.loadpc rc u) s = .fault .misalignedData) ∧
      (ea.toNat % 8 = 0 → ¬ DataReadableAt s ea → exec (.loadpc rc u) s = .fault .accessOutsideMap) ∧
      (ea.toNat % 8 = 0 → DataReadableAt s ea →
        ∃ t, exec (.loadpc rc u) s = .next t ∧
          (∀ k < 8, deviceAt s.map (ea + BitVec.ofNat 64 k) = false →
            (readReg t rc).extractLsb' (8 * k) 8 = readByte s (ea + BitVec.ofNat 64 k)) ∧
          SameRegsExcept rc s t ∧ t.pc = s.pc + 2 ∧ t.ib = s.ib ∧ t.flag = s.flag ∧ SameTrapState s t ∧ SameMemory s t ∧
          t.map = s.map ∧ t.devLog = if PlainMemoryAt s ea then s.devLog else .read ea :: s.devLog))

/-- `store.i64` (R94): the eight bytes of r[rc] at r[rb] + uimm3 × 8, the least significant lowest; misaligned, then to no
memory, then to a byte that is not writable, stop in this order (R166, D32, notes/assumptions/12.md). Bytes outside the
eight keep their values; a byte a device answers goes to the device, and the access is then recorded: the model's choice
(notes/assumptions/10.md). -/
def Obligations.StoreWritesMemory : Prop :=
  ∀ (rc rb : Reg) (u : Nat) (s : State) (ea : Addr), ea = baseAddr s rb u →
    ea = readReg s rb + BitVec.ofNat 64 (u * 8) ∧
    (u < 8 → EncodedAs (regBits rc ++ regBits rb ++ BitVec.ofNat 3 u ++ 0b10001#5 ++ 0b00#2) (.store rc rb u)) ∧
    (ea.toNat % 8 ≠ 0 → exec (.store rc rb u) s = .fault .misalignedData) ∧
    (ea.toNat % 8 = 0 → ¬ MappedAt s ea → exec (.store rc rb u) s = .fault .accessOutsideMap) ∧
    (ea.toNat % 8 = 0 → MappedAt s ea → ¬ DataWritableAt s ea → exec (.store rc rb u) s = .fault .storeToReadOnly) ∧
    (ea.toNat % 8 = 0 → DataWritableAt s ea →
      ∃ t, exec (.store rc rb u) s = .next t ∧
        (∀ k < 8, readByte t (ea + BitVec.ofNat 64 k) =
          if deviceAt s.map (ea + BitVec.ofNat 64 k) then readByte s (ea + BitVec.ofNat 64 k)
          else (readReg s rc).extractLsb' (8 * k) 8) ∧
        SameMemoryExcept ea s t ∧ SameRegs s t ∧ t.pc = s.pc + 2 ∧ t.ib = s.ib ∧ t.flag = s.flag ∧ SameTrapState s t ∧
        t.map = s.map ∧ t.devLog = if PlainMemoryAt s ea then s.devLog else .write ea (readReg s rc) :: s.devLog)

/-- `storepc.i64` (R92): as store, at the storepc's own address plus the sign-extended 32-bit constant (order of the checks:
notes/assumptions/12.md; devices: notes/assumptions/10.md). -/
def Obligations.StorepcWritesMemory : Prop :=
  ∀ (rc : Reg) (u : Nat) (s : State) (c : BitVec 32) (ea : Addr), ea = s.pc + c.signExtend 64 →
    (u < 64 → EncodedAs (regBits rc ++ BitVec.ofNat 6 u ++ 0b01111#5 ++ 0b00#2) (.storepc rc u)) ∧
    (¬ ConstReadableAt s 4 (s.ib + BitVec.ofNat 64 (u * 4)) → exec (.storepc rc u) s = .fault .accessOutsideMap) ∧
    (ConstReadableAt s 4 (s.ib + BitVec.ofNat 64 (u * 4)) → Holds32 s (s.ib + BitVec.ofNat 64 (u * 4)) c →
      pcRelAddr s u = .ok ea ∧
      (ea.toNat % 8 ≠ 0 → exec (.storepc rc u) s = .fault .misalignedData) ∧
      (ea.toNat % 8 = 0 → ¬ MappedAt s ea → exec (.storepc rc u) s = .fault .accessOutsideMap) ∧
      (ea.toNat % 8 = 0 → MappedAt s ea → ¬ DataWritableAt s ea → exec (.storepc rc u) s = .fault .storeToReadOnly) ∧
      (ea.toNat % 8 = 0 → DataWritableAt s ea →
        ∃ t, exec (.storepc rc u) s = .next t ∧
          (∀ k < 8, readByte t (ea + BitVec.ofNat 64 k) =
            if deviceAt s.map (ea + BitVec.ofNat 64 k) then readByte s (ea + BitVec.ofNat 64 k)
            else (readReg s rc).extractLsb' (8 * k) 8) ∧
          SameMemoryExcept ea s t ∧ SameRegs s t ∧ t.pc = s.pc + 2 ∧ t.ib = s.ib ∧ t.flag = s.flag ∧ SameTrapState s t ∧
          t.map = s.map ∧ t.devLog = if PlainMemoryAt s ea then s.devLog else .write ea (readReg s rc) :: s.devLog))

/-- "a `store` followed by a `load` of the same address returns the stored value" (R188, R46), in bytes that are readable,
writable and no device's, whichever registers and offsets name the address. -/
def Obligations.LoadAfterStoreReturnsValue : Prop :=
  ∀ (rc rb rd re : Reg) (u v : Nat) (s t : State),
    exec (.store rc rb u) s = .next t → baseAddr t re v = baseAddr s rb u →
    DataReadableAt s (baseAddr s rb u) → PlainMemoryAt s (baseAddr s rb u) →
    ∃ t', exec (.load rd re v) t = .next t' ∧ readReg t' rd = readReg s rc

/-- A narrower access sees the bytes a wider access wrote in that order (R35, D4): after a 64-bit data write of `v` at `a`, a
4-byte constant read at a + 4 gives v[63:32], one at a gives v[31:0], and a fetch at a + 2 gives v[31:16]. -/
def Obligations.NarrowAccessSeesWideWrite : Prop :=
  ∀ (s t : State) (a : Addr) (v : Word), memWrite s a v = .ok t → PlainMemoryAt s a →
    (∀ x, constRead32 t (a + 4) = .ok x → x = v.extractLsb' 32 32) ∧
    (∀ x, constRead32 t a = .ok x → x = v.extractLsb' 0 32) ∧
    (∀ w, fetch (setPc t (a + 2)) = .ok w → w = v.extractLsb' 16 16) ∧
    read32 t (a + 4) = v.extractLsb' 32 32 ∧ read32 t a = v.extractLsb' 0 32 ∧
    readByte t (a + 3) ++ readByte t (a + 2) = v.extractLsb' 16 16

/-- "ib-relative addresses alias a single constant storage space" (R33): the 64-bit constant n holds the 32-bit constants 2n
in its low half and 2n + 1 in its high half. -/
def Obligations.ConstantsAlias : Prop :=
  ∀ (s : State) (n : Nat) (c : Word), ib64Const s n = .ok c →
    ib32Const s (2 * n) = .ok ((c.extractLsb' 0 32).signExtend 64) ∧
    ib32Const s (2 * n + 1) = .ok ((c.extractLsb' 32 32).signExtend 64)

/-! ## Compare (43_compare_logic.md) -/

/-- `compare.i64 lt` and `ge` (R100, R101): signed, rc on the left; each writes flag and nothing else. -/
def Obligations.SignedCompares : Prop :=
  ∀ (rc rb : Reg) (s : State),
    (EncodedAs (regBits rc ++ regBits rb ++ 0b000#3 ++ 0b10010#5 ++ 0b00#2) (.compareLt rc rb) ∧
      ∃ t, exec (.compareLt rc rb) s = .next t ∧ (t.flag = true ↔ (readReg s rc).toInt < (readReg s rb).toInt) ∧
        OnlyFlagWritten s t) ∧
    (EncodedAs (regBits rc ++ regBits rb ++ 0b001#3 ++ 0b10010#5 ++ 0b00#2) (.compareGe rc rb) ∧
      ∃ t, exec (.compareGe rc rb) s = .next t ∧ (t.flag = true ↔ (readReg s rc).toInt ≥ (readReg s rb).toInt) ∧
        OnlyFlagWritten s t)

/-- `compare.i64 eq` and `ne` (R102, R103): all 64 bits. -/
def Obligations.EqualityCompares : Prop :=
  ∀ (rc rb : Reg) (s : State),
    (EncodedAs (regBits rc ++ regBits rb ++ 0b010#3 ++ 0b10010#5 ++ 0b00#2) (.compareEq rc rb) ∧
      ∃ t, exec (.compareEq rc rb) s = .next t ∧
        (t.flag = true ↔ ∀ n < 64, (readReg s rc).getLsbD n = (readReg s rb).getLsbD n) ∧ OnlyFlagWritten s t) ∧
    (EncodedAs (regBits rc ++ regBits rb ++ 0b011#3 ++ 0b10010#5 ++ 0b00#2) (.compareNe rc rb) ∧
      ∃ t, exec (.compareNe rc rb) s = .next t ∧
        (t.flag = true ↔ ∃ n < 64, (readReg s rc).getLsbD n ≠ (readReg s rb).getLsbD n) ∧ OnlyFlagWritten s t)

/-- `compare.i64 ltu` and `geu` (R104, R105): unsigned, rc on the left. -/
def Obligations.UnsignedCompares : Prop :=
  ∀ (rc rb : Reg) (s : State),
    (EncodedAs (regBits rc ++ regBits rb ++ 0b100#3 ++ 0b10010#5 ++ 0b00#2) (.compareLtu rc rb) ∧
      ∃ t, exec (.compareLtu rc rb) s = .next t ∧ (t.flag = true ↔ (readReg s rc).toNat < (readReg s rb).toNat) ∧
        OnlyFlagWritten s t) ∧
    (EncodedAs (regBits rc ++ regBits rb ++ 0b101#3 ++ 0b10010#5 ++ 0b00#2) (.compareGeu rc rb) ∧
      ∃ t, exec (.compareGeu rc rb) s = .next t ∧ (t.flag = true ↔ (readReg s rc).toNat ≥ (readReg s rb).toNat) ∧
        OnlyFlagWritten s t)

/-- `compare.i64 mov` (R106): rc gets r[rb] when flag = 1 and keeps its value when flag = 0; flag is not written. -/
def Obligations.ConditionalMove : Prop :=
  ∀ (rc rb : Reg) (s : State),
    EncodedAs (regBits rc ++ regBits rb ++ 0b110#3 ++ 0b10010#5 ++ 0b00#2) (.compareMov rc rb) ∧
    ∃ t, exec (.compareMov rc rb) s = .next t ∧
      readReg t rc = (if s.flag = true then readReg s rb else readReg s rc) ∧ OnlyRegWritten rc s t

/-! ## Logic (43_compare_logic.md) -/

/-- `logic.i64 mov` and `not` (R110, R111): the copy, and the complement of every bit. -/
def Obligations.MoveAndComplement : Prop :=
  ∀ (rc rb : Reg) (s : State),
    (EncodedAs (regBits rc ++ regBits rb ++ 0b000#3 ++ 0b10011#5 ++ 0b00#2) (.logicMov rc rb) ∧
      ∃ t, exec (.logicMov rc rb) s = .next t ∧ readReg t rc = readReg s rb ∧ OnlyRegWritten rc s t) ∧
    (EncodedAs (regBits rc ++ regBits rb ++ 0b001#3 ++ 0b10011#5 ++ 0b00#2) (.logicNot rc rb) ∧
      ∃ t, exec (.logicNot rc rb) s = .next t ∧ (∀ n < 64, (readReg t rc).getLsbD n = !(readReg s rb).getLsbD n) ∧
        OnlyRegWritten rc s t)

/-- `logic.i64 bswap` (R113): the order of the eight bytes is reversed, and twice gives the value back. The spec marks the
reversal as general knowledge (notes/assumptions/15.md). -/
def Obligations.ByteSwapReverses : Prop :=
  ∀ (rc rb : Reg) (s : State),
    EncodedAs (regBits rc ++ regBits rb ++ 0b011#3 ++ 0b10011#5 ++ 0b00#2) (.logicBswap rc rb) ∧
    ∃ t, exec (.logicBswap rc rb) s = .next t ∧
      (∀ k < 8, (readReg t rc).extractLsb' (8 * k) 8 = (readReg s rb).extractLsb' (8 * (7 - k)) 8) ∧
      OnlyRegWritten rc s t ∧
      ∃ t', exec (.logicBswap rc rc) t = .next t' ∧ readReg t' rc = readReg s rb

/-- `logic.i64 ctz` and `clz` (R114, R115): the number of 0 bits below the lowest 1 bit, and above the highest; 64 for 0 (the
spec's own decision D13). The spec marks which end is which as general knowledge (notes/assumptions/15.md). -/
def Obligations.CountZeros : Prop :=
  ∀ (rc rb : Reg) (s : State),
    (EncodedAs (regBits rc ++ regBits rb ++ 0b100#3 ++ 0b10011#5 ++ 0b00#2) (.logicCtz rc rb) ∧
      ∃ (t : State) (n : Nat), exec (.logicCtz rc rb) s = .next t ∧ (readReg t rc).toNat = n ∧ n ≤ 64 ∧
        (∀ i < n, (readReg s rb).getLsbD i = false) ∧ (n < 64 → (readReg s rb).getLsbD n = true) ∧
        OnlyRegWritten rc s t) ∧
    (EncodedAs (regBits rc ++ regBits rb ++ 0b101#3 ++ 0b10011#5 ++ 0b00#2) (.logicClz rc rb) ∧
      ∃ (t : State) (n : Nat), exec (.logicClz rc rb) s = .next t ∧ (readReg t rc).toNat = n ∧ n ≤ 64 ∧
        (∀ i < n, (readReg s rb).getLsbD (63 - i) = false) ∧ (n < 64 → (readReg s rb).getLsbD (63 - n) = true) ∧
        OnlyRegWritten rc s t)

/-- `logic.i64 ctpop` (R116): the number of bits that are 1, counted as the size of the set of their positions. -/
def Obligations.CountPopulationCounts : Prop :=
  ∀ (rc rb : Reg) (s : State),
    EncodedAs (regBits rc ++ regBits rb ++ 0b110#3 ++ 0b10011#5 ++ 0b00#2) (.logicCtpop rc rb) ∧
    ∃ t, exec (.logicCtpop rc rb) s = .next t ∧
      (readReg t rc).toNat = (Finset.univ.filter (fun i : Fin 64 => (readReg s rb).getLsbD i = true)).card ∧
      OnlyRegWritten rc s t

/-- `logic.i64 sext` (R117): there is one source width W, 8, 16 or 32 (D14, the spec's own: left open;
notes/assumptions/9.md), such that every sext gives the sign-extension of the low W bits; and a value whose bits 63:W−1 are
all equal is left unchanged. -/
def Obligations.SignExtendsFromOneWidth : Prop :=
  ∃ W : Nat, (W = 8 ∨ W = 16 ∨ W = 32) ∧
    ∀ (rc rb : Reg) (s : State),
      EncodedAs (regBits rc ++ regBits rb ++ 0b111#3 ++ 0b10011#5 ++ 0b00#2) (.logicSext rc rb) ∧
      ∃ t, exec (.logicSext rc rb) s = .next t ∧
        (readReg t rc).toInt = ((readReg s rb).toNat : Int).bmod (2 ^ W) ∧
        ((∀ i, W ≤ i → i < 64 → (readReg s rb).getLsbD i = (readReg s rb).getLsbD (W - 1)) → readReg t rc = readReg s rb) ∧
        OnlyRegWritten rc s t

/-! ## Three registers (44_arith.md) -/

/-- `pin.i64` (R120): lane 0 is the low half of pc + 2 − r[ra], lane 1 that of ib − r[rb], cut without indication (the spec's
own decisions D5 and D38, notes/assumptions/16.md). -/
def Obligations.PinPacksDifferences : Prop :=
  ∀ (rc rb ra : Reg) (s : State),
    EncodedAs (regBits rc ++ regBits rb ++ regBits ra ++ 0b10100#5 ++ 0b00#2) (.pin rc rb ra) ∧
    ∃ t, exec (.pin rc rb ra) s = .next t ∧
      (readReg t rc).toNat % 2 ^ 32 = (s.pc + 2 - readReg s ra).toNat % 2 ^ 32 ∧
      (readReg t rc).toNat / 2 ^ 32 = (s.ib - readReg s rb).toNat % 2 ^ 32 ∧ OnlyRegWritten rc s t

/-- `and.i64`, `or.i64` and `xor.i64` (R121, R122, R123), bit by bit. -/
def Obligations.BitwiseOperations : Prop :=
  ∀ (rc rb ra : Reg) (s : State),
    (EncodedAs (regBits rc ++ regBits rb ++ regBits ra ++ 0b10101#5 ++ 0b00#2) (.and rc rb ra) ∧
      ∃ t, exec (.and rc rb ra) s = .next t ∧
        (∀ n < 64, (readReg t rc).getLsbD n = ((readReg s rb).getLsbD n && (readReg s ra).getLsbD n)) ∧
        OnlyRegWritten rc s t) ∧
    (EncodedAs (regBits rc ++ regBits rb ++ regBits ra ++ 0b10110#5 ++ 0b00#2) (.or rc rb ra) ∧
      ∃ t, exec (.or rc rb ra) s = .next t ∧
        (∀ n < 64, (readReg t rc).getLsbD n = ((readReg s rb).getLsbD n || (readReg s ra).getLsbD n)) ∧
        OnlyRegWritten rc s t) ∧
    (EncodedAs (regBits rc ++ regBits rb ++ regBits ra ++ 0b10111#5 ++ 0b00#2) (.xor rc rb ra) ∧
      ∃ t, exec (.xor rc rb ra) s = .next t ∧
        (∀ n < 64, (readReg t rc).getLsbD n = ((readReg s rb).getLsbD n != (readReg s ra).getLsbD n)) ∧
        OnlyRegWritten rc s t)

/-- `add.i64`, `sub.i64` and `mul.i64` (R124, R128, R129): the true integer result reduced modulo 2^64, the same for the
signed and the unsigned reading of the operands; no trap and no flag (the spec's own decisions D10 and D33,
notes/assumptions/16.md). -/
def Obligations.WrappingArithmetic : Prop :=
  ∀ (rc rb ra : Reg) (s : State),
    (EncodedAs (regBits rc ++ regBits rb ++ regBits ra ++ 0b11000#5 ++ 0b00#2) (.add rc rb ra) ∧
      ∃ t, exec (.add rc rb ra) s = .next t ∧
        (readReg t rc).toInt = ((readReg s rb).toInt + (readReg s ra).toInt).bmod (2 ^ 64) ∧
        (readReg t rc).toNat = ((readReg s rb).toNat + (readReg s ra).toNat) % 2 ^ 64 ∧ OnlyRegWritten rc s t) ∧
    (EncodedAs (regBits rc ++ regBits rb ++ regBits ra ++ 0b11100#5 ++ 0b00#2) (.sub rc rb ra) ∧
      ∃ t, exec (.sub rc rb ra) s = .next t ∧
        (readReg t rc).toInt = ((readReg s rb).toInt - (readReg s ra).toInt).bmod (2 ^ 64) ∧
        ((readReg t rc).toNat : Int) = ((readReg s rb).toNat - (readReg s ra).toNat : Int) % 2 ^ 64 ∧
        OnlyRegWritten rc s t) ∧
    (EncodedAs (regBits rc ++ regBits rb ++ regBits ra ++ 0b11101#5 ++ 0b00#2) (.mul rc rb ra) ∧
      ∃ t, exec (.mul rc rb ra) s = .next t ∧
        (readReg t rc).toInt = ((readReg s rb).toInt * (readReg s ra).toInt).bmod (2 ^ 64) ∧
        (readReg t rc).toNat = (readReg s rb).toNat * (readReg s ra).toNat % 2 ^ 64 ∧ OnlyRegWritten rc s t)

/-- `srl.i64`, `sra.i64` and `sll.i64` (R125, R126, R127): the count is r[ra] modulo 64 (the spec's own decision
D11, notes/assumptions/16.md). -/
def Obligations.RegisterShifts : Prop :=
  ∀ (rc rb ra : Reg) (s : State) (n : Nat), n = (readReg s ra).toNat % 64 →
    (EncodedAs (regBits rc ++ regBits rb ++ regBits ra ++ 0b11001#5 ++ 0b00#2) (.srl rc rb ra) ∧
      ∃ t, exec (.srl rc rb ra) s = .next t ∧ (readReg t rc).toNat = (readReg s rb).toNat / 2 ^ n ∧
        OnlyRegWritten rc s t) ∧
    (EncodedAs (regBits rc ++ regBits rb ++ regBits ra ++ 0b11010#5 ++ 0b00#2) (.sra rc rb ra) ∧
      ∃ t, exec (.sra rc rb ra) s = .next t ∧ (readReg t rc).toInt = (readReg s rb).toInt / 2 ^ n ∧
        OnlyRegWritten rc s t) ∧
    (EncodedAs (regBits rc ++ regBits rb ++ regBits ra ++ 0b11011#5 ++ 0b00#2) (.sll rc rb ra) ∧
      ∃ t, exec (.sll rc rb ra) s = .next t ∧ (readReg t rc).toNat = (readReg s rb).toNat * 2 ^ n % 2 ^ 64 ∧
        OnlyRegWritten rc s t)

/-- `div.i64` (R130): a zero divisor raises DivideByZero; −2^63 / −1 is −2^63; any other quotient q is the one rounded
toward zero: a = q × b + r with |r| < |b| and r of a's sign. The rounding and the wrap are the spec's own decision D12
(notes/assumptions/16.md). -/
def Obligations.SignedDivision : Prop :=
  ∀ (rc rb ra : Reg) (s : State),
    EncodedAs (regBits rc ++ regBits rb ++ regBits ra ++ 0b11110#5 ++ 0b00#2) (.div rc rb ra) ∧
    (readReg s ra = 0 → ∃ t, exec (.div rc rb ra) s = .next t ∧ EntersTrap .divideByZero s t) ∧
    (readReg s ra ≠ 0 →
      ∃ (t : State) (q r : Int), exec (.div rc rb ra) s = .next t ∧ OnlyRegWritten rc s t ∧
        (readReg s rb).toInt = q * (readReg s ra).toInt + r ∧ r.natAbs < (readReg s ra).toInt.natAbs ∧
        (0 ≤ (readReg s rb).toInt → 0 ≤ r) ∧ ((readReg s rb).toInt ≤ 0 → r ≤ 0) ∧
        (if (readReg s rb).toInt = -(2 ^ 63) ∧ (readReg s ra).toInt = -1 then (readReg t rc).toInt = -(2 ^ 63)
         else (readReg t rc).toInt = q))

/-! ## The machine as a whole -/

/-- The launch state has the alignments R27 asks of `RESET_PC` and `RESET_IB`, code at pc and constants at ib that may be
read, a legal map and canonical memory. The values are the model's choices (notes/assumptions/1.md, 3.md, 4.md). -/
def Obligations.ResetMeetsInvariant : Prop :=
  StateInvariant State.reset ∧ fetchable State.reset.map State.reset.pc = true ∧
    fetchable State.reset.map (State.reset.pc + 1) = true ∧
    ConstReadableAt State.reset 512 State.reset.ib ∧ State.reset.trapped = false

/-- Every step keeps the invariant, from every state that has it: pc even (R18), ib a multiple of 64 (R21), tpc even (R26),
no writable code or constants (R43), memory in canonical form. -/
def Obligations.StepKeepsInvariant : Prop := ∀ s t : State, StateInvariant s → step s = .next t → StateInvariant t

/-- Every run keeps the invariant, from every state that has it. -/
def Obligations.RunKeepsInvariant : Prop :=
  ∀ (n : Nat) (s t : State), StateInvariant s → Sys2Proof.core.run n s = .next t → StateInvariant t

/-- "The instruction and constant bytes seen by `Fetch` and `ConstRead` are the initial contents for the whole run" (R48, the
spec's own decision D24): along any run from a state with a legal map, a byte of instruction or constant memory keeps its
value, and the map itself never changes (R43; that the map is held in the state is the model's choice,
notes/assumptions/5.md). A store to mapped bytes that include such a byte stops. -/
def Obligations.RunKeepsCodeAndConstants : Prop :=
  (∀ (n : Nat) (s t : State), mapLegal s.map = true → Sys2Proof.core.run n s = .next t →
    t.map = s.map ∧ ∀ a : Addr, ReadOnlyByte s.map a → readByte t a = readByte s a) ∧
  ∀ (rc rb : Reg) (u k : Nat) (s : State), mapLegal s.map = true → (baseAddr s rb u).toNat % 8 = 0 →
    MappedAt s (baseAddr s rb u) → k < 8 → ReadOnlyByte s.map (baseAddr s rb u + BitVec.ofNat 64 k) →
    exec (.store rc rb u) s = .fault .storeToReadOnly

/-- "written by `compare` with fun3 = 0..5"; "No other instruction reads or writes it" (R23), and trap entry leaves it: if
flag changes, the instruction was one of the six comparisons (the spec's own decision D28, notes/assumptions/16.md). -/
def Obligations.FlagWrittenOnlyByComparisons : Prop :=
  ∀ (i : Instr) (s t : State), exec i s = .next t → t.flag ≠ s.flag →
    ∃ rc rb : Reg, i = .compareLt rc rb ∨ i = .compareGe rc rb ∨ i = .compareEq rc rb ∨ i = .compareNe rc rb ∨
      i = .compareLtu rc rb ∨ i = .compareGeu rc rb

/-- `ib` is not advanced by ordinary instructions: only ibj, jalib and jtlib change it (R22). -/
def Obligations.IbWrittenOnlyByBlockTransfers : Prop :=
  ∀ (i : Instr) (s t : State), exec i s = .next t → t.ib ≠ s.ib →
    (∃ z, i = .ibj z) ∨ (∃ rc u, i = .jalib rc u) ∨ (∃ rc u, i = .jtlib rc u)

/-- The privileged registers are "written by trap entry only" (R26), and traps are precise (R165): a step keeps the trap
state, or it is a trap entry that changes nothing but pc, tpc, tcause and the model's record of the run's end (D17, D18;
notes/assumptions/11.md). -/
def Obligations.StepKeepsTrapStateOrEntersTrap : Prop :=
  ∀ s t : State, step s = .next t → SameTrapState s t ∨ ∃ c, EntersTrap c s t

/-- What each instruction writes (R15): a general register that changes is the instruction's destination; and memory changes
only under store and storepc (R32). -/
def Obligations.OnlyDestinationsWritten : Prop :=
  ∀ (i : Instr) (s t : State), exec i s = .next t →
    (∀ r, readReg t r ≠ readReg s r → destination i = some r) ∧
    ((∃ a, readByte t a ≠ readByte s a) → (∃ rc u, i = .storepc rc u) ∨ ∃ rc rb u, i = .store rc rb u)

/-- "every other instruction | pc + 2 | unchanged" (R76): an instruction that is not j, b, jalib or jtlib, and does not
trap, advances normally. -/
def Obligations.OtherInstructionsAdvance : Prop :=
  ∀ (i : Instr) (s t : State), exec i s = .next t → (∀ c, ¬ EntersTrap c s t) →
    (∀ z, i ≠ .j z) → (∀ z, i ≠ .b z) → (∀ rc u, i ≠ .jalib rc u) → (∀ rc u, i ≠ .jtlib rc u) → t.pc = s.pc + 2

/-- A step stops exactly under the conditions that 93_implementation_defined.md section 1 calls unspecified, its tag
UnwrittenRegister left out, or to report a run that has ended in a trap. A read of a register or flag that nothing has written
gives the value held and never stops: the model's choice, "any value" of that section (notes/assumptions/2.md), on which the
last clause, a next state when no condition holds, rests. The report, exactly when the run has ended (D19; its form is the model's,
notes/assumptions/11.md); the fetch, exactly when the two bytes are not both fetchable; a decoded instruction `i`, with a
fault `f` exactly when `UnspecifiedWhen s i f`, and with a next state when no such condition holds. That the conditions are
faults is the spec's own decision (R10, R163, D7, D8, D39; notes/assumptions/20.md), their order D32 (R166;
notes/assumptions/12.md). -/
def Obligations.StepStopsExactlyWhenUnspecified : Prop :=
  ∀ s : State,
    (∀ c p, step s = .fault (.trapped c p) ↔ s.trapped = true ∧ c = s.tcause ∧ p = s.tpc) ∧
    (step s = .fault .fetchOutsideMap ↔
      s.trapped = false ∧ (fetchable s.map s.pc = false ∨ fetchable s.map (s.pc + 1) = false)) ∧
    ∀ (w : Packet) (i : Instr), s.trapped = false → fetch s = .ok w → decodePacket w = .ok i →
      (∀ f, step s = .fault f ↔ UnspecifiedWhen s i f) ∧
      ((∀ f, ¬ UnspecifiedWhen s i f) → ∃ t, step s = .next t)

/-! ## The assembler's aliases (45_assembler_abi.md) -/

/-- Each comparison alias sets flag to the truth of "first written operand ⟨relation⟩ second written operand", the swapped
ones too; `cmp.gt` of two registers is `cmp.lt` of them exchanged, and `cmp.gt.i64 r1, r2` is 0x4448 (R151, which marks the
swap as derived from R100). -/
def Obligations.ComparisonAliases : Prop :=
  ∀ (rc rb : Reg) (s : State) (a b : Word), a = readReg s rc → b = readReg s rb →
    (∃ t, exec (expand (.cmpLt rc rb)) s = .next t ∧ (t.flag = true ↔ a.toInt < b.toInt)) ∧
    (∃ t, exec (expand (.cmpGt rc rb)) s = .next t ∧ (t.flag = true ↔ a.toInt > b.toInt)) ∧
    (∃ t, exec (expand (.cmpLe rc rb)) s = .next t ∧ (t.flag = true ↔ a.toInt ≤ b.toInt)) ∧
    (∃ t, exec (expand (.cmpGe rc rb)) s = .next t ∧ (t.flag = true ↔ a.toInt ≥ b.toInt)) ∧
    (∃ t, exec (expand (.cmpEq rc rb)) s = .next t ∧ (t.flag = true ↔ a = b)) ∧
    (∃ t, exec (expand (.cmpNe rc rb)) s = .next t ∧ (t.flag = true ↔ a ≠ b)) ∧
    (∃ t, exec (expand (.cmpLtu rc rb)) s = .next t ∧ (t.flag = true ↔ a.toNat < b.toNat)) ∧
    (∃ t, exec (expand (.cmpGtu rc rb)) s = .next t ∧ (t.flag = true ↔ a.toNat > b.toNat)) ∧
    (∃ t, exec (expand (.cmpLeu rc rb)) s = .next t ∧ (t.flag = true ↔ a.toNat ≤ b.toNat)) ∧
    (∃ t, exec (expand (.cmpGeu rc rb)) s = .next t ∧ (t.flag = true ↔ a.toNat ≥ b.toNat)) ∧
    expand (.cmpGt rc rb) = expand (.cmpLt rb rc) ∧ encode (expand (.cmpGt .r1 .r2)) = 0x4448

/-- `nop` is 0x0058, rewrites r0 with its own value and changes nothing but pc (R147). -/
def Obligations.NopOnlyAdvances : Prop :=
  encode (expand .nop) = 0x0058 ∧
    ∀ s : State, ∃ t, exec (expand .nop) s = .next t ∧ SameRegs s t ∧ t.pc = s.pc + 2 ∧ t.ib = s.ib ∧ t.flag = s.flag ∧
      SameTrapState s t ∧ SameMemory s t ∧ SamePlatform s t

/-- The relocation of `call` (R150): when the call's constant is `ibcall-reloc` of an even text label and a const label
that is a multiple of 64, both within 32 signed bits, the call goes to (text label, const label) and links in r7. R150 marks
the formula as derived from R74, R75 and R77. -/
def Obligations.CallRelocationReachesLabels : Prop :=
  ∀ (n : Nat) (s : State) (text const : Addr),
    text.toNat % 2 = 0 → const.toNat % 64 = 0 → Fits32 (text - (s.pc + 2)) → Fits32 (const - s.ib) →
    ConstReadableAt s 8 (s.ib + BitVec.ofNat 64 (n * 8)) →
    Holds64 s (s.ib + BitVec.ofNat 64 (n * 8)) (callReloc text const s.pc s.ib) →
    ∃ t, exec (expand (.call text const n)) s = .next t ∧ t.pc = text ∧ t.ib = const ∧
      readReg t .r7 = callReloc text const s.pc s.ib

/-- `li` and both forms of `la` (R149, which gives them as its own illustration; notes/assumptions/21.md): with the constant
they allocate present at its index in the immediate block, `li` loads its value modulo 2^64, of any size, and `la` the
symbol's address; the position-independent form when the symbol is within 32 signed bits of the leapc. -/
def Obligations.LiAndLaReachTheirValues : Prop :=
  ∀ (rc : Reg) (slot : Nat) (s : State),
    (∀ v : Int, EntryPresent s (allocated (.li rc v slot) s.pc s.ib) →
      ∃ t, exec (expand (.li rc v slot)) s = .next t ∧ readReg t rc = BitVec.ofInt 64 v ∧ OnlyRegWritten rc s t) ∧
    (∀ symbol : Addr, EntryPresent s (allocated (.laAbsolute rc symbol slot) s.pc s.ib) →
      ∃ t, exec (expand (.laAbsolute rc symbol slot)) s = .next t ∧ readReg t rc = symbol ∧ OnlyRegWritten rc s t) ∧
    (∀ symbol : Addr, Fits32 (symbol - s.pc) → EntryPresent s (allocated (.laPcRelative rc symbol slot) s.pc s.ib) →
      ∃ t, exec (expand (.laPcRelative rc symbol slot)) s = .next t ∧ readReg t rc = symbol ∧ OnlyRegWritten rc s t)
end

