-- ==== Sys2Proof/Laws/State.lean ====
section
/-! SUPPORT. Laws/State.lean: for every named update of the state, each field of the result; and reading a register. -/

namespace Sys2Proof.Machine

/-! ## writeReg -/

@[simp] theorem writeReg_regs (s : State) (r : Reg) (v : Word) : (writeReg s r v).regs = s.regs.set r v := rfl
@[simp] theorem writeReg_pc (s : State) (r : Reg) (v : Word) : (writeReg s r v).pc = s.pc := rfl
@[simp] theorem writeReg_ib (s : State) (r : Reg) (v : Word) : (writeReg s r v).ib = s.ib := rfl
@[simp] theorem writeReg_flag (s : State) (r : Reg) (v : Word) : (writeReg s r v).flag = s.flag := rfl
@[simp] theorem writeReg_tpc (s : State) (r : Reg) (v : Word) : (writeReg s r v).tpc = s.tpc := rfl
@[simp] theorem writeReg_tcause (s : State) (r : Reg) (v : Word) : (writeReg s r v).tcause = s.tcause := rfl
@[simp] theorem writeReg_mem (s : State) (r : Reg) (v : Word) : (writeReg s r v).mem = s.mem := rfl
@[simp] theorem writeReg_map (s : State) (r : Reg) (v : Word) : (writeReg s r v).map = s.map := rfl
@[simp] theorem writeReg_trapped (s : State) (r : Reg) (v : Word) : (writeReg s r v).trapped = s.trapped := rfl
@[simp] theorem writeReg_devLog (s : State) (r : Reg) (v : Word) : (writeReg s r v).devLog = s.devLog := rfl

/-! ## writeFlag -/

@[simp] theorem writeFlag_regs (s : State) (b : Bool) : (writeFlag s b).regs = s.regs := rfl
@[simp] theorem writeFlag_pc (s : State) (b : Bool) : (writeFlag s b).pc = s.pc := rfl
@[simp] theorem writeFlag_ib (s : State) (b : Bool) : (writeFlag s b).ib = s.ib := rfl
@[simp] theorem writeFlag_flag (s : State) (b : Bool) : (writeFlag s b).flag = b := rfl
@[simp] theorem writeFlag_tpc (s : State) (b : Bool) : (writeFlag s b).tpc = s.tpc := rfl
@[simp] theorem writeFlag_tcause (s : State) (b : Bool) : (writeFlag s b).tcause = s.tcause := rfl
@[simp] theorem writeFlag_mem (s : State) (b : Bool) : (writeFlag s b).mem = s.mem := rfl
@[simp] theorem writeFlag_map (s : State) (b : Bool) : (writeFlag s b).map = s.map := rfl
@[simp] theorem writeFlag_trapped (s : State) (b : Bool) : (writeFlag s b).trapped = s.trapped := rfl
@[simp] theorem writeFlag_devLog (s : State) (b : Bool) : (writeFlag s b).devLog = s.devLog := rfl

/-! ## setPc, advance, setIb -/

@[simp] theorem setPc_regs (s : State) (a : Addr) : (setPc s a).regs = s.regs := rfl
@[simp] theorem setPc_pc (s : State) (a : Addr) : (setPc s a).pc = a := rfl
@[simp] theorem setPc_ib (s : State) (a : Addr) : (setPc s a).ib = s.ib := rfl
@[simp] theorem setPc_flag (s : State) (a : Addr) : (setPc s a).flag = s.flag := rfl
@[simp] theorem setPc_tpc (s : State) (a : Addr) : (setPc s a).tpc = s.tpc := rfl
@[simp] theorem setPc_tcause (s : State) (a : Addr) : (setPc s a).tcause = s.tcause := rfl
@[simp] theorem setPc_mem (s : State) (a : Addr) : (setPc s a).mem = s.mem := rfl
@[simp] theorem setPc_map (s : State) (a : Addr) : (setPc s a).map = s.map := rfl
@[simp] theorem setPc_trapped (s : State) (a : Addr) : (setPc s a).trapped = s.trapped := rfl
@[simp] theorem setPc_devLog (s : State) (a : Addr) : (setPc s a).devLog = s.devLog := rfl

@[simp] theorem advance_regs (s : State) : (advance s).regs = s.regs := rfl
@[simp] theorem advance_pc (s : State) : (advance s).pc = s.pc + 2 := rfl
@[simp] theorem advance_ib (s : State) : (advance s).ib = s.ib := rfl
@[simp] theorem advance_flag (s : State) : (advance s).flag = s.flag := rfl
@[simp] theorem advance_tpc (s : State) : (advance s).tpc = s.tpc := rfl
@[simp] theorem advance_tcause (s : State) : (advance s).tcause = s.tcause := rfl
@[simp] theorem advance_mem (s : State) : (advance s).mem = s.mem := rfl
@[simp] theorem advance_map (s : State) : (advance s).map = s.map := rfl
@[simp] theorem advance_trapped (s : State) : (advance s).trapped = s.trapped := rfl
@[simp] theorem advance_devLog (s : State) : (advance s).devLog = s.devLog := rfl

@[simp] theorem setIb_regs (s : State) (a : Addr) : (setIb s a).regs = s.regs := rfl
@[simp] theorem setIb_pc (s : State) (a : Addr) : (setIb s a).pc = s.pc := rfl
@[simp] theorem setIb_ib (s : State) (a : Addr) : (setIb s a).ib = a := rfl
@[simp] theorem setIb_flag (s : State) (a : Addr) : (setIb s a).flag = s.flag := rfl
@[simp] theorem setIb_tpc (s : State) (a : Addr) : (setIb s a).tpc = s.tpc := rfl
@[simp] theorem setIb_tcause (s : State) (a : Addr) : (setIb s a).tcause = s.tcause := rfl
@[simp] theorem setIb_mem (s : State) (a : Addr) : (setIb s a).mem = s.mem := rfl
@[simp] theorem setIb_map (s : State) (a : Addr) : (setIb s a).map = s.map := rfl
@[simp] theorem setIb_trapped (s : State) (a : Addr) : (setIb s a).trapped = s.trapped := rfl
@[simp] theorem setIb_devLog (s : State) (a : Addr) : (setIb s a).devLog = s.devLog := rfl

/-! ## takeTrap -/

@[simp] theorem takeTrap_regs (s : State) (c : Cause) : (takeTrap s c).regs = s.regs := rfl
@[simp] theorem takeTrap_pc (s : State) (c : Cause) : (takeTrap s c).pc = Config.trapVector := rfl
@[simp] theorem takeTrap_ib (s : State) (c : Cause) : (takeTrap s c).ib = s.ib := rfl
@[simp] theorem takeTrap_flag (s : State) (c : Cause) : (takeTrap s c).flag = s.flag := rfl
@[simp] theorem takeTrap_tpc (s : State) (c : Cause) : (takeTrap s c).tpc = s.pc := rfl
@[simp] theorem takeTrap_tcause (s : State) (c : Cause) : (takeTrap s c).tcause = c := rfl
@[simp] theorem takeTrap_mem (s : State) (c : Cause) : (takeTrap s c).mem = s.mem := rfl
@[simp] theorem takeTrap_map (s : State) (c : Cause) : (takeTrap s c).map = s.map := rfl
@[simp] theorem takeTrap_trapped (s : State) (c : Cause) : (takeTrap s c).trapped = true := rfl
@[simp] theorem takeTrap_devLog (s : State) (c : Cause) : (takeTrap s c).devLog = s.devLog := rfl

/-! ## writeByte -/

@[simp] theorem writeByte_regs (s : State) (a : Addr) (b : Byte) : (writeByte s a b).regs = s.regs := rfl
@[simp] theorem writeByte_pc (s : State) (a : Addr) (b : Byte) : (writeByte s a b).pc = s.pc := rfl
@[simp] theorem writeByte_ib (s : State) (a : Addr) (b : Byte) : (writeByte s a b).ib = s.ib := rfl
@[simp] theorem writeByte_flag (s : State) (a : Addr) (b : Byte) : (writeByte s a b).flag = s.flag := rfl
@[simp] theorem writeByte_tpc (s : State) (a : Addr) (b : Byte) : (writeByte s a b).tpc = s.tpc := rfl
@[simp] theorem writeByte_tcause (s : State) (a : Addr) (b : Byte) : (writeByte s a b).tcause = s.tcause := rfl
@[simp] theorem writeByte_mem (s : State) (a : Addr) (b : Byte) : (writeByte s a b).mem = Memory.put s.mem a.toNat b := rfl
@[simp] theorem writeByte_map (s : State) (a : Addr) (b : Byte) : (writeByte s a b).map = s.map := rfl
@[simp] theorem writeByte_trapped (s : State) (a : Addr) (b : Byte) : (writeByte s a b).trapped = s.trapped := rfl
@[simp] theorem writeByte_devLog (s : State) (a : Addr) (b : Byte) : (writeByte s a b).devLog = s.devLog := rfl

/-! ## recordAccess: only the record of device accesses may change -/

theorem recordAccess_cases (s : State) (a : Addr) (e : DeviceEvent) :
    recordAccess s a e = s ∨ recordAccess s a e = { s with devLog := e :: s.devLog } := by
  unfold recordAccess; split
  · exact .inr rfl
  · exact .inl rfl

@[simp] theorem recordAccess_regs (s : State) (a : Addr) (e : DeviceEvent) : (recordAccess s a e).regs = s.regs := by
  rcases recordAccess_cases s a e with h | h <;> rw [h]
@[simp] theorem recordAccess_pc (s : State) (a : Addr) (e : DeviceEvent) : (recordAccess s a e).pc = s.pc := by
  rcases recordAccess_cases s a e with h | h <;> rw [h]
@[simp] theorem recordAccess_ib (s : State) (a : Addr) (e : DeviceEvent) : (recordAccess s a e).ib = s.ib := by
  rcases recordAccess_cases s a e with h | h <;> rw [h]
@[simp] theorem recordAccess_flag (s : State) (a : Addr) (e : DeviceEvent) : (recordAccess s a e).flag = s.flag := by
  rcases recordAccess_cases s a e with h | h <;> rw [h]
@[simp] theorem recordAccess_tpc (s : State) (a : Addr) (e : DeviceEvent) : (recordAccess s a e).tpc = s.tpc := by
  rcases recordAccess_cases s a e with h | h <;> rw [h]
@[simp] theorem recordAccess_tcause (s : State) (a : Addr) (e : DeviceEvent) : (recordAccess s a e).tcause = s.tcause := by
  rcases recordAccess_cases s a e with h | h <;> rw [h]
@[simp] theorem recordAccess_mem (s : State) (a : Addr) (e : DeviceEvent) : (recordAccess s a e).mem = s.mem := by
  rcases recordAccess_cases s a e with h | h <;> rw [h]
@[simp] theorem recordAccess_map (s : State) (a : Addr) (e : DeviceEvent) : (recordAccess s a e).map = s.map := by
  rcases recordAccess_cases s a e with h | h <;> rw [h]
@[simp] theorem recordAccess_trapped (s : State) (a : Addr) (e : DeviceEvent) : (recordAccess s a e).trapped = s.trapped := by
  rcases recordAccess_cases s a e with h | h <;> rw [h]
theorem recordAccess_devLog (s : State) (a : Addr) (e : DeviceEvent) :
    (recordAccess s a e).devLog = if touchesDevice s.map a then e :: s.devLog else s.devLog := by
  unfold recordAccess; split <;> rfl

/-! ## Reading registers -/

/-- The register written reads as written, and every other as before. -/
@[simp] theorem get_set (g : Regs) (r q : Reg) (v : Word) : (g.set r v).get q = if q = r then v else g.get q := by
  cases r <;> cases q <;> rfl

@[simp] theorem readReg_writeReg (s : State) (r q : Reg) (v : Word) :
    readReg (writeReg s r v) q = if q = r then v else readReg s q := get_set s.regs r q v

theorem readReg_of_regs {s t : State} (h : t.regs = s.regs) (r : Reg) : readReg t r = readReg s r := by
  unfold readReg; rw [h]

theorem sameRegs_of_regs {s t : State} (h : t.regs = s.regs) : SameRegs s t := fun r => readReg_of_regs h r

@[simp] theorem readReg_writeFlag (s : State) (b : Bool) (r : Reg) : readReg (writeFlag s b) r = readReg s r := rfl
@[simp] theorem readReg_advance (s : State) (r : Reg) : readReg (advance s) r = readReg s r := rfl
@[simp] theorem readReg_setPc (s : State) (a : Addr) (r : Reg) : readReg (setPc s a) r = readReg s r := rfl
@[simp] theorem readReg_setIb (s : State) (a : Addr) (r : Reg) : readReg (setIb s a) r = readReg s r := rfl
@[simp] theorem readReg_takeTrap (s : State) (c : Cause) (r : Reg) : readReg (takeTrap s c) r = readReg s r := rfl
@[simp] theorem readReg_writeByte (s : State) (a : Addr) (b : Byte) (r : Reg) : readReg (writeByte s a b) r = readReg s r := rfl
@[simp] theorem readReg_recordAccess (s : State) (a : Addr) (e : DeviceEvent) (r : Reg) :
    readReg (recordAccess s a e) r = readReg s r := readReg_of_regs (recordAccess_regs s a e) r

/-! ## Reading bytes -/

theorem readByte_of_mem {s t : State} (h : t.mem = s.mem) (a : Addr) : readByte t a = readByte s a := by
  unfold readByte; rw [h]

theorem sameMemory_of_mem {s t : State} (h : t.mem = s.mem) : SameMemory s t := fun a => readByte_of_mem h a

@[simp] theorem readByte_writeReg (s : State) (r : Reg) (v : Word) (a : Addr) : readByte (writeReg s r v) a = readByte s a := rfl
@[simp] theorem readByte_writeFlag (s : State) (b : Bool) (a : Addr) : readByte (writeFlag s b) a = readByte s a := rfl
@[simp] theorem readByte_advance (s : State) (a : Addr) : readByte (advance s) a = readByte s a := rfl
@[simp] theorem readByte_setPc (s : State) (p a : Addr) : readByte (setPc s p) a = readByte s a := rfl
@[simp] theorem readByte_setIb (s : State) (p a : Addr) : readByte (setIb s p) a = readByte s a := rfl
@[simp] theorem readByte_takeTrap (s : State) (c : Cause) (a : Addr) : readByte (takeTrap s c) a = readByte s a := rfl
@[simp] theorem readByte_recordAccess (s : State) (p : Addr) (e : DeviceEvent) (a : Addr) :
    readByte (recordAccess s p e) a = readByte s a := readByte_of_mem (recordAccess_mem s p e) a

end Sys2Proof.Machine
end

