-- ==== Sys2Proof/Laws/Memory.lean ====
section
/-! SUPPORT. Laws/Memory.lean: reading after writing, and that every memory operation keeps the canonical form. -/

namespace Sys2Proof.Machine

/-! ## The list of cells -/

/-- The address written reads as written, every other as before. -/
theorem lookup_put (m : Memory) (a c : Nat) (b : Byte) :
    Memory.lookup (Memory.put m a b) c = if c = a then some b else Memory.lookup m c := by
  induction m with
  | nil =>
    by_cases hc : a = c
    · subst hc; simp [Memory.put, Memory.lookup]
    · simp [Memory.put, Memory.lookup, hc, Ne.symm hc]
  | cons e m ih =>
    obtain ⟨k, v⟩ := e
    rcases Nat.lt_trichotomy a k with h | h | h
    · by_cases hc : a = c
      · subst hc; simp [Memory.put, Memory.lookup, h]
      · simp [Memory.put, Memory.lookup, h, hc, Ne.symm hc]
    · subst h
      by_cases hc : a = c
      · subst hc; simp [Memory.put, Memory.lookup]
      · simp [Memory.put, Memory.lookup, hc, Ne.symm hc]
    · have h1 : ¬ a < k := by omega
      have h2 : a ≠ k := by omega
      by_cases hc : k = c
      · subst hc; simp [Memory.put, Memory.lookup, h1, h2, Ne.symm h2]
      · simp [Memory.put, Memory.lookup, h1, h2, hc, ih]

/-- Lowering the bound keeps a rising list rising. -/
theorem wfFrom_mono {m : Memory} {lo lo' : Nat} (h : Memory.wfFrom lo m = true) (hl : lo' ≤ lo) :
    Memory.wfFrom lo' m = true := by
  cases m with
  | nil => rfl
  | cons e m =>
    obtain ⟨k, v⟩ := e
    simp only [Memory.wfFrom, Bool.and_eq_true, decide_eq_true_eq] at h ⊢
    exact ⟨⟨by omega, h.1.2⟩, h.2⟩

theorem wfFrom_put {m : Memory} {lo a : Nat} {b : Byte} (h : Memory.wfFrom lo m = true) (hl : lo ≤ a) (ha : a < 2 ^ 64) :
    Memory.wfFrom lo (Memory.put m a b) = true := by
  induction m generalizing lo with
  | nil => simp only [Memory.put, Memory.wfFrom, Bool.and_eq_true, decide_eq_true_eq]; exact ⟨⟨hl, ha⟩, trivial⟩
  | cons e m ih =>
    obtain ⟨k, v⟩ := e
    simp only [Memory.wfFrom, Bool.and_eq_true, decide_eq_true_eq] at h
    unfold Memory.put
    split
    · simp only [Memory.wfFrom, Bool.and_eq_true, decide_eq_true_eq]
      exact ⟨⟨hl, ha⟩, ⟨by omega, h.1.2⟩, h.2⟩
    · split
      · rename_i _ hk
        subst hk
        simp only [Memory.wfFrom, Bool.and_eq_true, decide_eq_true_eq]
        exact ⟨⟨hl, ha⟩, h.2⟩
      · simp only [Memory.wfFrom, Bool.and_eq_true, decide_eq_true_eq]
        exact ⟨h.1, ih h.2 (by omega)⟩

/-- A write keeps the canonical form. -/
theorem wf_put {m : Memory} {a : Nat} {b : Byte} (h : Memory.wf m = true) (ha : a < 2 ^ 64) :
    Memory.wf (Memory.put m a b) = true := wfFrom_put h (Nat.zero_le a) ha

/-- The reset memory has the canonical form. -/
theorem wf_reset : Memory.wf State.reset.mem = true := rfl

/-! ## Bytes -/

/-- A byte written reads as written, every other byte as before. -/
theorem readByte_writeByte (s : State) (a c : Addr) (b : Byte) :
    readByte (writeByte s a b) c = if c = a then b else readByte s c := by
  unfold readByte
  rw [writeByte_mem, lookup_put]
  by_cases h : c = a
  · subst h; simp
  · have : c.toNat ≠ a.toNat := fun e => h (BitVec.eq_of_toNat_eq e)
    simp [h, this]

theorem wf_writeByte {s : State} (h : Memory.wf s.mem = true) (a : Addr) (b : Byte) :
    Memory.wf (writeByte s a b).mem = true := wf_put h a.isLt

/-! ## storeByte and storeBytes -/

theorem storeByte_cases (s : State) (a : Addr) (b : Byte) :
    (deviceAt s.map a = true ∧ storeByte s a b = s) ∨ (deviceAt s.map a = false ∧ storeByte s a b = writeByte s a b) := by
  unfold storeByte
  cases h : deviceAt s.map a
  · exact .inr ⟨rfl, rfl⟩
  · exact .inl ⟨rfl, rfl⟩

@[simp] theorem storeByte_regs (s : State) (a : Addr) (b : Byte) : (storeByte s a b).regs = s.regs := by
  rcases storeByte_cases s a b with ⟨_, h⟩ | ⟨_, h⟩ <;> rw [h]; rfl
@[simp] theorem storeByte_pc (s : State) (a : Addr) (b : Byte) : (storeByte s a b).pc = s.pc := by
  rcases storeByte_cases s a b with ⟨_, h⟩ | ⟨_, h⟩ <;> rw [h]; rfl
@[simp] theorem storeByte_ib (s : State) (a : Addr) (b : Byte) : (storeByte s a b).ib = s.ib := by
  rcases storeByte_cases s a b with ⟨_, h⟩ | ⟨_, h⟩ <;> rw [h]; rfl
@[simp] theorem storeByte_flag (s : State) (a : Addr) (b : Byte) : (storeByte s a b).flag = s.flag := by
  rcases storeByte_cases s a b with ⟨_, h⟩ | ⟨_, h⟩ <;> rw [h]; rfl
@[simp] theorem storeByte_tpc (s : State) (a : Addr) (b : Byte) : (storeByte s a b).tpc = s.tpc := by
  rcases storeByte_cases s a b with ⟨_, h⟩ | ⟨_, h⟩ <;> rw [h]; rfl
@[simp] theorem storeByte_tcause (s : State) (a : Addr) (b : Byte) : (storeByte s a b).tcause = s.tcause := by
  rcases storeByte_cases s a b with ⟨_, h⟩ | ⟨_, h⟩ <;> rw [h]; rfl
@[simp] theorem storeByte_map (s : State) (a : Addr) (b : Byte) : (storeByte s a b).map = s.map := by
  rcases storeByte_cases s a b with ⟨_, h⟩ | ⟨_, h⟩ <;> rw [h]; rfl
@[simp] theorem storeByte_trapped (s : State) (a : Addr) (b : Byte) : (storeByte s a b).trapped = s.trapped := by
  rcases storeByte_cases s a b with ⟨_, h⟩ | ⟨_, h⟩ <;> rw [h]; rfl
@[simp] theorem storeByte_devLog (s : State) (a : Addr) (b : Byte) : (storeByte s a b).devLog = s.devLog := by
  rcases storeByte_cases s a b with ⟨_, h⟩ | ⟨_, h⟩ <;> rw [h]; rfl

theorem readByte_storeByte (s : State) (a c : Addr) (b : Byte) :
    readByte (storeByte s a b) c = if c = a ∧ deviceAt s.map a = false then b else readByte s c := by
  rcases storeByte_cases s a b with ⟨hd, h⟩ | ⟨hd, h⟩
  · rw [h, hd]; simp
  · rw [h, hd, readByte_writeByte]; simp

theorem wf_storeByte {s : State} (h : Memory.wf s.mem = true) (a : Addr) (b : Byte) :
    Memory.wf (storeByte s a b).mem = true := by
  rcases storeByte_cases s a b with ⟨_, e⟩ | ⟨_, e⟩ <;> rw [e]
  · exact h
  · exact wf_writeByte h a b

/-- storeBytes changes memory and nothing else. -/
theorem storeBytes_keeps (n : Nat) (s : State) (a : Addr) (v : Word) :
    (storeBytes n s a v).regs = s.regs ∧ (storeBytes n s a v).pc = s.pc ∧ (storeBytes n s a v).ib = s.ib ∧
      (storeBytes n s a v).flag = s.flag ∧ (storeBytes n s a v).tpc = s.tpc ∧ (storeBytes n s a v).tcause = s.tcause ∧
      (storeBytes n s a v).map = s.map ∧ (storeBytes n s a v).trapped = s.trapped ∧
      (storeBytes n s a v).devLog = s.devLog := by
  induction n with
  | zero => simp [storeBytes]
  | succ n ih => simpa [storeBytes] using ih

@[simp] theorem storeBytes_regs (n : Nat) (s : State) (a : Addr) (v : Word) : (storeBytes n s a v).regs = s.regs :=
  (storeBytes_keeps n s a v).1
@[simp] theorem storeBytes_pc (n : Nat) (s : State) (a : Addr) (v : Word) : (storeBytes n s a v).pc = s.pc :=
  (storeBytes_keeps n s a v).2.1
@[simp] theorem storeBytes_ib (n : Nat) (s : State) (a : Addr) (v : Word) : (storeBytes n s a v).ib = s.ib :=
  (storeBytes_keeps n s a v).2.2.1
@[simp] theorem storeBytes_flag (n : Nat) (s : State) (a : Addr) (v : Word) : (storeBytes n s a v).flag = s.flag :=
  (storeBytes_keeps n s a v).2.2.2.1
@[simp] theorem storeBytes_tpc (n : Nat) (s : State) (a : Addr) (v : Word) : (storeBytes n s a v).tpc = s.tpc :=
  (storeBytes_keeps n s a v).2.2.2.2.1
@[simp] theorem storeBytes_tcause (n : Nat) (s : State) (a : Addr) (v : Word) : (storeBytes n s a v).tcause = s.tcause :=
  (storeBytes_keeps n s a v).2.2.2.2.2.1
@[simp] theorem storeBytes_map (n : Nat) (s : State) (a : Addr) (v : Word) : (storeBytes n s a v).map = s.map :=
  (storeBytes_keeps n s a v).2.2.2.2.2.2.1
@[simp] theorem storeBytes_trapped (n : Nat) (s : State) (a : Addr) (v : Word) : (storeBytes n s a v).trapped = s.trapped :=
  (storeBytes_keeps n s a v).2.2.2.2.2.2.2.1
@[simp] theorem storeBytes_devLog (n : Nat) (s : State) (a : Addr) (v : Word) : (storeBytes n s a v).devLog = s.devLog :=
  (storeBytes_keeps n s a v).2.2.2.2.2.2.2.2

theorem wf_storeBytes {s : State} (h : Memory.wf s.mem = true) (n : Nat) (a : Addr) (v : Word) :
    Memory.wf (storeBytes n s a v).mem = true := by
  induction n with
  | zero => exact h
  | succ n ih => exact wf_storeByte ih _ _

/-- A byte outside the `n` from `a` reads as before. -/
theorem readByte_storeBytes_other (n : Nat) (s : State) (a c : Addr) (v : Word)
    (h : ∀ k < n, c ≠ a + BitVec.ofNat 64 k) : readByte (storeBytes n s a v) c = readByte s c := by
  induction n with
  | zero => rfl
  | succ n ih =>
    have hn : c ≠ a + BitVec.ofNat 64 n := h n (Nat.lt_succ_self n)
    rw [storeBytes, readByte_storeByte, if_neg (fun e => hn e.1)]
    exact ih (fun k hk => h k (Nat.lt_succ_of_lt hk))

/-- Small offsets from one address are different addresses. -/
theorem add_ofNat_inj {a : Addr} {j k : Nat} (hj : j < 8) (hk : k < 8)
    (h : a + BitVec.ofNat 64 j = a + BitVec.ofNat 64 k) : j = k := by
  have h' := congrArg BitVec.toNat (add_left_cancel h)
  simp only [BitVec.toNat_ofNat] at h'
  omega

/-- A byte of the `n` from `a` that no device answers reads as stored. -/
theorem readByte_storeBytes_same (n : Nat) (hn : n ≤ 8) (s : State) (a : Addr) (v : Word) (k : Nat) (hk : k < n)
    (hd : deviceAt s.map (a + BitVec.ofNat 64 k) = false) :
    readByte (storeBytes n s a v) (a + BitVec.ofNat 64 k) = byteOf v k := by
  induction n with
  | zero => omega
  | succ n ih =>
    rw [storeBytes, readByte_storeByte]
    by_cases e : k = n
    · subst e; rw [if_pos ⟨rfl, by simpa using hd⟩]
    · rw [if_neg (fun h => e (add_ofNat_inj (by omega) (by omega) h.1))]
      exact ih (by omega) (by omega)

/-- A byte a device answers keeps its value in memory. -/
theorem readByte_storeBytes_device (n : Nat) (s : State) (a c : Addr) (v : Word) (hd : deviceAt s.map c = true) :
    readByte (storeBytes n s a v) c = readByte s c := by
  induction n with
  | zero => rfl
  | succ n ih =>
    rw [storeBytes, readByte_storeByte, if_neg, ih]
    rintro ⟨e, h⟩
    rw [storeBytes_map, ← e, hd] at h
    exact absurd h (by decide)

/-! ## Words and their bytes -/

/-- The value whose bytes, lowest first, are those of `v`. -/
theorem bytes_of_word (v : Word) :
    byteOf v 7 ++ byteOf v 6 ++ byteOf v 5 ++ byteOf v 4 ++ byteOf v 3 ++ byteOf v 2 ++ byteOf v 1 ++ byteOf v 0 = v := by
  apply BitVec.eq_of_getLsbD_eq
  intro i hi
  simp only [byteOf, BitVec.getLsbD_append, BitVec.getLsbD_extractLsb']
  repeat' split
  all_goals (rw [decide_eq_true (by omega), Bool.true_and]; congr 1; omega)

/-! ## Loading a packet keeps the canonical form and the constraint on the map -/

theorem grantFetch_legal {map : List Region} (h : mapLegal map = true) (a : Addr) : mapLegal (grantFetch map a) = true := by
  unfold grantFetch
  split
  · exact h
  · unfold mapLegal at *
    rw [List.all_cons, h]
    simp [Perm.legal]

theorem wf_loadPacketAtPc {s : State} (h : Memory.wf s.mem = true) (w : Packet) :
    Memory.wf (loadPacketAtPc s w).mem = true := wf_writeByte (wf_writeByte h _ _) _ _

end Sys2Proof.Machine
end

