-- ==== Sys2Proof/Laws/Access.lean ====
section
/-! SUPPORT. Laws/Access.lean: for each shared operation, what it can do, said once: the map, the four accesses, the operand
forms, and the ways an instruction ends. -/

namespace Sys2Proof.Machine

/-! ## The map -/

theorem allBytes_iff (n : Nat) (a : Addr) (test : Addr → Bool) :
    allBytes n a test = true ↔ ∀ k < n, test (a + BitVec.ofNat 64 k) = true := by
  unfold allBytes; rw [List.all_eq_true]; simp only [List.mem_range]

theorem allBytes_eq_false_iff (n : Nat) (a : Addr) (test : Addr → Bool) :
    allBytes n a test = false ↔ ∃ k < n, test (a + BitVec.ofNat 64 k) = false := by
  unfold allBytes; rw [List.all_eq_false]; simp only [List.mem_range, Bool.not_eq_true]

/-- The permission at an address is some region's. -/
theorem permAt_mem {map : List Region} {a : Addr} {p : Perm} (h : permAt map a = some p) : ∃ g ∈ map, g.perm = p := by
  unfold permAt at h
  obtain ⟨g, hg, e⟩ := Option.map_eq_some_iff.mp h
  exact ⟨g, List.mem_of_find?_eq_some hg, e⟩

/-- A legal map gives legal permissions (R43). -/
theorem permAt_legal {map : List Region} {a : Addr} {p : Perm} (hl : mapLegal map = true) (h : permAt map a = some p) :
    p.legal = true := by
  obtain ⟨g, hg, e⟩ := permAt_mem h
  rw [← e]
  exact List.all_eq_true.mp hl g hg

theorem any_perm_iff (o : Option Perm) (f : Perm → Bool) : o.any f = true ↔ ∃ p, o = some p ∧ f p = true := by
  cases o <;> simp

/-- In a legal map a byte of instruction or constant memory is not writable (R43, R48). -/
theorem readOnly_not_writable {map : List Region} {a : Addr} (hl : mapLegal map = true) (h : ReadOnlyByte map a) :
    dataWritable map a = false := by
  unfold ReadOnlyByte fetchable constReadable at h
  rw [any_perm_iff, any_perm_iff] at h
  obtain ⟨p, hp, hk⟩ : ∃ p, permAt map a = some p ∧ (p.x || p.k) = true := by
    rcases h with ⟨p, hp, h⟩ | ⟨p, hp, h⟩ <;> exact ⟨p, hp, by simp [h]⟩
  have hlp := permAt_legal hl hp
  unfold dataWritable
  rw [hp]
  unfold Perm.legal at hlp
  rw [hk] at hlp
  simpa using hlp

/-! ## Fetch and constant reads (R38, R39) -/

theorem fetch_of_fetchable {s : State} (h : ∀ k < 2, fetchable s.map (s.pc + BitVec.ofNat 64 k) = true) :
    fetch s = .ok (packetOfBytes (readByte s s.pc) (readByte s (s.pc + 1))) := by
  unfold fetch; rw [if_pos ((allBytes_iff _ _ _).mpr h)]

theorem fetch_of_not_fetchable {s : State} {k : Nat} (hk : k < 2) (h : fetchable s.map (s.pc + BitVec.ofNat 64 k) = false) :
    fetch s = .error .fetchOutsideMap := by
  unfold fetch; rw [if_neg]; rw [Bool.not_eq_true, allBytes_eq_false_iff]; exact ⟨k, hk, h⟩

theorem constRead32_cases (s : State) (a : Addr) :
    ((∀ k < 4, constReadable s.map (a + BitVec.ofNat 64 k) = true) ∧ constRead32 s a = .ok (read32 s a)) ∨
      ((∃ k < 4, constReadable s.map (a + BitVec.ofNat 64 k) = false) ∧ constRead32 s a = .error .accessOutsideMap) := by
  unfold constRead32
  cases h : allBytes 4 a (constReadable s.map)
  · exact .inr ⟨(allBytes_eq_false_iff _ _ _).mp h, rfl⟩
  · exact .inl ⟨(allBytes_iff _ _ _).mp h, rfl⟩

theorem constRead64_cases (s : State) (a : Addr) :
    ((∀ k < 8, constReadable s.map (a + BitVec.ofNat 64 k) = true) ∧ constRead64 s a = .ok (read64 s a)) ∨
      ((∃ k < 8, constReadable s.map (a + BitVec.ofNat 64 k) = false) ∧ constRead64 s a = .error .accessOutsideMap) := by
  unfold constRead64
  cases h : allBytes 8 a (constReadable s.map)
  · exact .inr ⟨(allBytes_eq_false_iff _ _ _).mp h, rfl⟩
  · exact .inl ⟨(allBytes_iff _ _ _).mp h, rfl⟩

theorem constRead32_of_readable {s : State} {a : Addr} (h : ∀ k < 4, constReadable s.map (a + BitVec.ofNat 64 k) = true) :
    constRead32 s a = .ok (read32 s a) := if_pos ((allBytes_iff _ _ _).mpr h)

theorem constRead64_of_readable {s : State} {a : Addr} (h : ∀ k < 8, constReadable s.map (a + BitVec.ofNat 64 k) = true) :
    constRead64 s a = .ok (read64 s a) := if_pos ((allBytes_iff _ _ _).mpr h)

theorem ib64Const_of_readable {s : State} {n : Nat}
    (h : ∀ k < 8, constReadable s.map (ib64Addr s n + BitVec.ofNat 64 k) = true) :
    ib64Const s n = .ok (read64 s (ib64Addr s n)) := constRead64_of_readable h

theorem ib32Const_of_readable {s : State} {n : Nat}
    (h : ∀ k < 4, constReadable s.map (ib32Addr s n + BitVec.ofNat 64 k) = true) :
    ib32Const s n = .ok (sext32 (read32 s (ib32Addr s n))) := by
  unfold ib32Const; rw [constRead32_of_readable h]

theorem pcRelAddr_of_readable {s : State} {n : Nat}
    (h : ∀ k < 4, constReadable s.map (ib32Addr s n + BitVec.ofNat 64 k) = true) :
    pcRelAddr s n = .ok (s.pc + sext32 (read32 s (ib32Addr s n))) := by
  unfold pcRelAddr; rw [ib32Const_of_readable h]

/-! ## Data accesses (R36, R37) -/

theorem aligned8_iff (a : Addr) : aligned8 a = true ↔ a.toNat % 8 = 0 := by unfold aligned8; exact decide_eq_true_iff

/-- What a data read can do. -/
theorem memRead_cases (s : State) (a : Addr) :
    (a.toNat % 8 ≠ 0 ∧ memRead s a = .error .misalignedData) ∨
      (a.toNat % 8 = 0 ∧ (∃ k < 8, dataReadable s.map (a + BitVec.ofNat 64 k) = false) ∧
        memRead s a = .error .accessOutsideMap) ∨
      (a.toNat % 8 = 0 ∧ (∀ k < 8, dataReadable s.map (a + BitVec.ofNat 64 k) = true) ∧
        memRead s a = .ok (dataWord s a, recordAccess s a (.read a))) := by
  unfold memRead
  by_cases ha : a.toNat % 8 = 0
  · rw [(aligned8_iff a).mpr ha]
    cases h : allBytes 8 a (dataReadable s.map)
    · exact .inr (.inl ⟨ha, (allBytes_eq_false_iff _ _ _).mp h, rfl⟩)
    · exact .inr (.inr ⟨ha, (allBytes_iff _ _ _).mp h, rfl⟩)
  · have : aligned8 a = false := by rw [← Bool.not_eq_true, aligned8_iff]; exact ha
    rw [this]
    exact .inl ⟨ha, rfl⟩

/-- What a data write can do. -/
theorem memWrite_cases (s : State) (a : Addr) (v : Word) :
    (a.toNat % 8 ≠ 0 ∧ memWrite s a v = .error .misalignedData) ∨
      (a.toNat % 8 = 0 ∧ (∃ k < 8, mapped s.map (a + BitVec.ofNat 64 k) = false) ∧
        memWrite s a v = .error .accessOutsideMap) ∨
      (a.toNat % 8 = 0 ∧ (∀ k < 8, mapped s.map (a + BitVec.ofNat 64 k) = true) ∧
        (∃ k < 8, dataWritable s.map (a + BitVec.ofNat 64 k) = false) ∧ memWrite s a v = .error .storeToReadOnly) ∨
      (a.toNat % 8 = 0 ∧ (∀ k < 8, dataWritable s.map (a + BitVec.ofNat 64 k) = true) ∧
        memWrite s a v = .ok (recordAccess (storeBytes 8 s a v) a (.write a v))) := by
  unfold memWrite
  by_cases ha : a.toNat % 8 = 0
  · rw [(aligned8_iff a).mpr ha]
    cases hm : allBytes 8 a (mapped s.map)
    · exact .inr (.inl ⟨ha, (allBytes_eq_false_iff _ _ _).mp hm, rfl⟩)
    · cases h : allBytes 8 a (dataWritable s.map)
      · exact .inr (.inr (.inl ⟨ha, (allBytes_iff _ _ _).mp hm, (allBytes_eq_false_iff _ _ _).mp h, rfl⟩))
      · exact .inr (.inr (.inr ⟨ha, (allBytes_iff _ _ _).mp h, rfl⟩))
  · have : aligned8 a = false := by rw [← Bool.not_eq_true, aligned8_iff]; exact ha
    rw [this]
    exact .inl ⟨ha, rfl⟩

/-- A writable byte is mapped. -/
theorem mapped_of_writable {map : List Region} {a : Addr} (h : dataWritable map a = true) : mapped map a = true := by
  unfold dataWritable at h
  rw [any_perm_iff] at h
  obtain ⟨p, hp, _⟩ := h
  unfold mapped
  rw [hp]
  rfl

theorem memRead_of_readable {s : State} {a : Addr} (ha : a.toNat % 8 = 0)
    (h : ∀ k < 8, dataReadable s.map (a + BitVec.ofNat 64 k) = true) :
    memRead s a = .ok (dataWord s a, recordAccess s a (.read a)) := by
  rcases memRead_cases s a with ⟨h1, _⟩ | ⟨_, ⟨k, hk, h1⟩, _⟩ | ⟨_, _, e⟩
  · exact absurd ha h1
  · rw [h k hk] at h1; exact absurd h1 (by decide)
  · exact e

theorem memWrite_of_writable {s : State} {a : Addr} (v : Word) (ha : a.toNat % 8 = 0)
    (h : ∀ k < 8, dataWritable s.map (a + BitVec.ofNat 64 k) = true) :
    memWrite s a v = .ok (recordAccess (storeBytes 8 s a v) a (.write a v)) := by
  rcases memWrite_cases s a v with ⟨h1, _⟩ | ⟨_, ⟨k, hk, h1⟩, _⟩ | ⟨_, _, ⟨k, hk, h1⟩, _⟩ | ⟨_, _, e⟩
  · exact absurd ha h1
  · rw [mapped_of_writable (h k hk)] at h1; exact absurd h1 (by decide)
  · rw [h k hk] at h1; exact absurd h1 (by decide)
  · exact e

/-- The bytes of a data read: memory, where no device answers. -/
theorem dataByte_of_memory {s : State} {a : Addr} (h : deviceAt s.map a = false) : dataByte s a = readByte s a := by
  unfold dataByte; rw [h]; rfl

/-- With no device among the eight bytes, no access is recorded. -/
theorem recordAccess_of_memory {s : State} {a : Addr} (e : DeviceEvent)
    (h : ∀ k < 8, deviceAt s.map (a + BitVec.ofNat 64 k) = false) : recordAccess s a e = s := by
  unfold recordAccess touchesDevice
  rw [(allBytes_iff 8 a _).mpr (fun k hk => by simp [h k hk])]
  rfl

/-! ## How an instruction ends -/

@[simp] theorem setRegNext_eq (s : State) (rc : Reg) (v : Word) : setRegNext s rc v = .next (advance (writeReg s rc v)) := rfl

@[simp] theorem setFlagNext_eq (s : State) (b : Bool) : setFlagNext s b = .next (advance (writeFlag s b)) := rfl

theorem targetAligned_iff (npc nib : Addr) :
    targetAligned npc nib = true ↔ npc.toNat % 2 = 0 ∧ nib.toNat % 64 = 0 := by
  unfold targetAligned; rw [Bool.and_eq_true, decide_eq_true_iff, decide_eq_true_iff]

/-- What moving (pc, ib) together can do. -/
theorem transfer_cases (s : State) (npc nib : Addr) :
    (npc.toNat % 2 = 0 ∧ nib.toNat % 64 = 0 ∧ transfer s npc nib = .next (setPc (setIb s nib) npc)) ∨
      (¬ (npc.toNat % 2 = 0 ∧ nib.toNat % 64 = 0) ∧ transfer s npc nib = .fault .misalignedTarget) := by
  unfold transfer
  by_cases h : npc.toNat % 2 = 0 ∧ nib.toNat % 64 = 0
  · rw [if_pos ((targetAligned_iff _ _).mpr h)]; exact .inl ⟨h.1, h.2, rfl⟩
  · rw [if_neg (fun e => h ((targetAligned_iff _ _).mp e))]; exact .inr ⟨h, rfl⟩

/-- A load that answers a next state read eight readable bytes, wrote rc and advanced. -/
theorem loadNext_next {s t : State} {rc : Reg} {ea : Addr} (h : loadNext s rc ea = .next t) :
    ea.toNat % 8 = 0 ∧ (∀ k < 8, dataReadable s.map (ea + BitVec.ofNat 64 k) = true) ∧
      t = advance (writeReg (recordAccess s ea (.read ea)) rc (dataWord s ea)) := by
  unfold loadNext at h
  rcases memRead_cases s ea with ⟨_, e⟩ | ⟨_, _, e⟩ | ⟨ha, hr, e⟩ <;> rw [e] at h
  · cases h
  · cases h
  · injection h with h; exact ⟨ha, hr, h.symm⟩

/-- A store that answers a next state wrote eight writable bytes and advanced. -/
theorem storeNext_next {s t : State} {ea : Addr} {v : Word} (h : storeNext s ea v = .next t) :
    ea.toNat % 8 = 0 ∧ (∀ k < 8, dataWritable s.map (ea + BitVec.ofNat 64 k) = true) ∧
      t = advance (recordAccess (storeBytes 8 s ea v) ea (.write ea v)) := by
  unfold storeNext at h
  rcases memWrite_cases s ea v with ⟨_, e⟩ | ⟨_, _, e⟩ | ⟨_, _, _, e⟩ | ⟨ha, hw, e⟩ <;> rw [e] at h
  · cases h
  · cases h
  · cases h
  · injection h with h; exact ⟨ha, hw, h.symm⟩

end Sys2Proof.Machine
end

