-- ==== Sys2Proof/Machine/Directives.lean ====
section
/-! DEFINITION. Machine/Directives.lean: the assembler's sections and directives (spec/45_assembler_abi.md R144, R145), every row
of Table 3.1, as steps of an assembler over the object it builds. Nothing here changes what the hardware does. -/

namespace Sys2Proof.Machine

/-! ## Sections (R144) -/

/-- The five sections the source lists. -/
inductive Section where
  | text | const | data | rodata | bss
  deriving DecidableEq, Repr

/-- The permission of a section's bytes in the usual map (R43, R144). That `.text` and `.const` may be read as data too, which
R43 leaves to the map, is a DESIGN CHOICE (notes/assumptions/4.md). -/
def sectionPerm (s : Section) : Perm :=
  match s with
  | .text => Perm.text
  | .const => Perm.const
  | .data => Perm.data
  | .rodata => Perm.rodata
  | .bss => Perm.data

/-- A section of an object: one of the five, or one that `.section` names. -/
inductive SectionId where
  | listed (s : Section)
  | named (name : String)
  deriving DecidableEq, Repr

/-- The section that a name given to `.section` means: the five by their own names. -/
def sectionIdOf (name : String) : SectionId :=
  if name = ".text" then .listed .text
  else if name = ".const" then .listed .const
  else if name = ".data" then .listed .data
  else if name = ".rodata" then .listed .rodata
  else if name = ".bss" then .listed .bss
  else .named name

/-! ## Directives (R145, Table 3.1) -/

/-- The widths of the data directives. -/
inductive DataWidth where
  | byte | short | long | quad | octa
  deriving DecidableEq, Repr

/-- The bytes of a data directive's word: 8, 16, 32, 64 and 128 bits. -/
def dataBytes (w : DataWidth) : Nat :=
  match w with
  | .byte => 1
  | .short => 2
  | .long => 4
  | .quad => 8
  | .octa => 16

/-- A member of an expression-list. No expression syntax is described; a number, or a name that `.equ` has defined, is a DESIGN
CHOICE (notes/assumptions/27.md). -/
inductive AsmExpr where
  | num (v : Int)
  | name (n : String)
  deriving DecidableEq, Repr

/-- The scope of a symbol that `.globl` or `.local` emits. -/
inductive Scope where
  | global | localScope
  deriving DecidableEq, Repr

/-- The directives of Table 3.1, row for row. -/
inductive Directive where
  /-- `.byte`, `.short`, `.long`, `.quad`, `.octa` expression-list. -/
  | data (w : DataWidth) (values : List AsmExpr)
  /-- `.string`: the bytes of the string, and whether a terminating zero follows, which the source does not state
  (notes/assumptions/21.md). -/
  | string (bytes : List Byte) (terminated : Bool)
  /-- `.zero integer`. That the integer counts bytes and is not negative is a DESIGN CHOICE (notes/assumptions/27.md). -/
  | zero (count : Nat)
  /-- `.align pow2 [,pad_val] [,max]`. That `pow2` is the exponent is a DESIGN CHOICE (notes/assumptions/23.md), as is that
  `pad`, here and in `balign`, is one byte (notes/assumptions/26.md); it is `none` where it is left out. -/
  | align (pow2 : Nat) (pad : Option Byte) (max : Option Nat)
  /-- `.balign bytes [,pad_val]`. -/
  | balign (bytes : Nat) (pad : Option Byte)
  /-- `.globl` and `.local` symbol_name, const_name. -/
  | symbol (scope : Scope) (symbolName constName : String)
  /-- `.text`, `.const`, `.data`, `.rodata`, `.bss`. -/
  | switch (s : Section)
  /-- `.common` symbol_name, size, align. That both are counted in bytes is a DESIGN CHOICE (notes/assumptions/28.md). -/
  | common (symbolName : String) (size align : Nat)
  /-- `.section` section_name, `none` where the name is left out. -/
  | sectionNamed (name : Option String)
  /-- `.equ` name, value. -/
  | equ (name : String) (value : AsmExpr)
  /-- `.file` "filename". -/
  | file (filename : String)
  /-- `.ident` "string". -/
  | ident (text : String)
  /-- `.size` symbol, symbol. -/
  | size (symbolName sizeSymbol : String)
  /-- `.type` symbol, @function: the one type the source shows. -/
  | typeFunction (symbolName : String)
  deriving DecidableEq, Repr

/-- A statement of an assembly file: a directive, an instruction, or a label, whose syntax is not described. -/
inductive AsmStatement where
  | directive (d : Directive)
  | instr (i : Instr)
  | label (name : String)
  deriving DecidableEq, Repr

/-! ## The object being built -/

/-- A byte of a section: `none` where it is reserved and holds no initial value (`.bss`, R144). -/
abbrev ObjectByte := Option Byte

/-- A place in an object: a section and the offset of a byte in it. -/
structure ObjectPlace where
  section_ : SectionId
  offset : Nat
  deriving DecidableEq, Repr

/-- A symbol that `.globl` or `.local` emits: "function symbols are exported with two labels" (R145, R155). -/
structure ObjectSymbol where
  scope : Scope
  symbolName : String
  constName : String
  deriving DecidableEq, Repr

/-- The object an assembler builds, and the section that is current. -/
structure AsmObject where
  /-- The sections emitted so far, oldest first. -/
  sections : List (SectionId × List ObjectByte)
  current : SectionId
  /-- The places of labels and common objects, newest first. -/
  labels : List (String × ObjectPlace)
  /-- The constants of `.equ`, newest first. -/
  constants : List (String × Int)
  /-- What the symbol and miscellaneous directives emit, oldest first. -/
  symbols : List ObjectSymbol
  files : List String
  idents : List String
  sizes : List (String × String)
  functions : List String
  deriving DecidableEq, Repr

/-- Before the first statement: an empty `.text` is current. That it is `.text` is a DESIGN CHOICE read from `.section`'s
"default .text" (notes/assumptions/28.md). -/
def emptyObject : AsmObject where
  sections := [(.listed .text, [])]
  current := .listed .text
  labels := []
  constants := []
  symbols := []
  files := []
  idents := []
  sizes := []
  functions := []

/-- The bytes of a section so far; none if it has not been emitted. -/
def sectionBytes (o : AsmObject) (id : SectionId) : List ObjectByte := (o.sections.lookup id).getD []

/-- Add bytes at the end of a section in a list of sections, emitting it if it is not there. -/
def appendSection (ss : List (SectionId × List ObjectByte)) (id : SectionId) (bs : List ObjectByte) :
    List (SectionId × List ObjectByte) :=
  match ss with
  | [] => [(id, bs)]
  | (k, cs) :: ss => if k = id then (k, cs ++ bs) :: ss else (k, cs) :: appendSection ss id bs

/-- Add bytes at the end of a section. -/
def appendBytes (o : AsmObject) (id : SectionId) (bs : List ObjectByte) : AsmObject :=
  { o with sections := appendSection o.sections id bs }

/-- The offset at which the next byte of a section lies. -/
def sectionOffset (o : AsmObject) (id : SectionId) : Nat := (sectionBytes o id).length

/-- "emit … section or make current": the section exists afterwards, and is current. -/
def switchTo (o : AsmObject) (id : SectionId) : AsmObject := { appendBytes o id [] with current := id }

/-- Give a name the place where the next byte of a section lies. -/
def defineAt (o : AsmObject) (name : String) (id : SectionId) : AsmObject :=
  { o with labels := (name, { section_ := id, offset := sectionOffset o id }) :: o.labels }

/-! ## What the directives emit -/

/-- The `n` low bytes of a number, least significant first (R35, R145). That a value which does not fit the directive's width
is cut to these bytes, and not refused, is a DESIGN CHOICE (notes/assumptions/24.md). -/
def littleEndian (n : Nat) (v : Int) : List Byte := (List.range n).map (fun k => BitVec.ofInt 8 (v / 2 ^ (8 * k)))

/-- The number of bytes from a position to the next multiple of `m`; none for `m` = 0 (DESIGN CHOICE,
notes/assumptions/23.md). Positions are offsets in their section (DESIGN CHOICE, notes/assumptions/26.md). -/
def paddingCount (pos m : Nat) : Nat := (m - pos % m) % m

/-- The bytes of padding `.align` asks for: to the next multiple of 2^pow2. With a third argument, whose effect the source does
not state, their number is a free value (notes/assumptions/29.md). -/
def alignCount (pos pow2 : Nat) (max : Option Nat) : Nat :=
  match max with
  | none => paddingCount pos (2 ^ pow2)
  | some m => Config.alignMaxCount pos pow2 m

/-- The padding value of `.align` and `.balign`: 0 where it is left out (R145, `pad_val=0`). -/
def padValue (pad : Option Byte) : Byte := pad.getD 0

/-- Padding: its value is one byte, repeated for every byte of it (DESIGN CHOICE, notes/assumptions/26.md). -/
def padding (count : Nat) (pad : Option Byte) : List Byte := List.replicate count (padValue pad)

/-- The value of an expression; `none` for a name that no `.equ` before it has defined. Of two definitions of a name the later
one holds (DESIGN CHOICE, notes/assumptions/27.md). -/
def exprValue (o : AsmObject) (e : AsmExpr) : Option Int :=
  match e with
  | .num v => some v
  | .name n => o.constants.lookup n

/-- Initial bytes at the end of the current section. -/
def emitBytes (o : AsmObject) (bs : List Byte) : AsmObject := appendBytes o o.current (bs.map some)

/-- `.common`: a common object in `.bss`: aligned, reserved without a value, and named. It is placed at the end of `.bss` as it
stands (DESIGN CHOICE, notes/assumptions/28.md); the current section stays current. -/
def emitCommon (o : AsmObject) (name : String) (size align : Nat) : AsmObject :=
  let bss : SectionId := .listed .bss
  let aligned := appendBytes o bss (List.replicate (paddingCount (sectionOffset o bss) align) none)
  appendBytes (defineAt aligned name bss) bss (List.replicate size none)

/-- What a directive does to the object (R145); `none` where it uses a name that is not defined. -/
def assembleDirective (o : AsmObject) (d : Directive) : Option AsmObject :=
  match d with
  | .data w es => (es.mapM (exprValue o)).map (fun vs => emitBytes o (vs.flatMap (littleEndian (dataBytes w))))
  | .string bs terminated => some (emitBytes o (if terminated then bs ++ [0] else bs))
  | .zero n => some (emitBytes o (List.replicate n 0))
  | .align p pad max => some (emitBytes o (padding (alignCount (sectionOffset o o.current) p max) pad))
  | .balign m pad => some (emitBytes o (padding (paddingCount (sectionOffset o o.current) m) pad))
  | .symbol scope s c => some { o with symbols := o.symbols ++ [{ scope := scope, symbolName := s, constName := c }] }
  | .switch s => some (switchTo o (.listed s))
  | .common s n a => some (emitCommon o s n a)
  | .sectionNamed none => some (switchTo o (.listed .text))
  | .sectionNamed (some name) => some (switchTo o (sectionIdOf name))
  | .equ n e => (exprValue o e).map (fun v => { o with constants := (n, v) :: o.constants })
  | .file f => some { o with files := o.files ++ [f] }
  | .ident s => some { o with idents := o.idents ++ [s] }
  | .size s t => some { o with sizes := o.sizes ++ [(s, t)] }
  | .typeFunction s => some { o with functions := o.functions ++ [s] }

/-- What a statement does: a directive; the bytes of an instruction's packet (R65, R39), at whatever offset is reached; a name
for the place reached. That an immediate which does not fit its field is cut to the field's low bits, and not refused, is a
DESIGN CHOICE (notes/assumptions/30.md), as is that an odd offset is not refused. -/
def assembleStatement (o : AsmObject) (s : AsmStatement) : Option AsmObject :=
  match s with
  | .directive d => assembleDirective o d
  | .instr i => some (emitBytes o (encodeBytes i))
  | .label n => some (defineAt o n o.current)

/-- An assembly file, from the empty object (R142); `none` where a statement uses a name that is not defined. -/
def assemble (file : List AsmStatement) : Option AsmObject := file.foldlM assembleStatement emptyObject

/-- The two places of an exported symbol: the label of its code and the label of its immediate block (R145, R155). -/
def symbolPlaces (o : AsmObject) (s : ObjectSymbol) : Option (ObjectPlace × ObjectPlace) :=
  match o.labels.lookup s.symbolName, o.labels.lookup s.constName with
  | some p, some q => some (p, q)
  | _, _ => none

end Sys2Proof.Machine
end

