-- ==== Sys2Proof/Laws/Directives.lean ====
section
/-! SUPPORT. Laws/Directives.lean: what the assembler's shared operations do to the sections of an object. -/

namespace Sys2Proof.Machine

theorem lookup_appendSection (ss : List (SectionId × List ObjectByte)) (id k : SectionId) (bs : List ObjectByte) :
    ((appendSection ss id bs).lookup k).getD [] = if k = id then (ss.lookup id).getD [] ++ bs else (ss.lookup k).getD [] := by
  induction ss with
  | nil =>
    by_cases h : k = id
    · subst h; simp [appendSection]
    · have : (k == id) = false := by simp [h]
      simp [appendSection, List.lookup, h, this]
  | cons e ss ih =>
    obtain ⟨j, cs⟩ := e
    by_cases hj : j = id
    · subst hj
      by_cases h : k = j
      · subst h; simp [appendSection]
      · have : (k == j) = false := by simp [h]
        simp [appendSection, List.lookup, h, this]
    · have hij : (id == j) = false := by simp [Ne.symm hj]
      by_cases h : k = j
      · subst h; simp [appendSection, hj]
      · have hkj : (k == j) = false := by simp [h]
        simp only [appendSection, if_neg hj, List.lookup, hkj, hij]
        exact ih

/-- Bytes go to the end of their section, and no other section changes. -/
@[simp] theorem sectionBytes_appendBytes (o : AsmObject) (id k : SectionId) (bs : List ObjectByte) :
    sectionBytes (appendBytes o id bs) k = if k = id then sectionBytes o id ++ bs else sectionBytes o k :=
  lookup_appendSection o.sections id k bs

@[simp] theorem appendBytes_current (o : AsmObject) (id : SectionId) (bs : List ObjectByte) :
    (appendBytes o id bs).current = o.current := rfl

@[simp] theorem switchTo_current (o : AsmObject) (id : SectionId) : (switchTo o id).current = id := rfl

/-- Switching sections changes no byte. -/
@[simp] theorem sectionBytes_switchTo (o : AsmObject) (id k : SectionId) : sectionBytes (switchTo o id) k = sectionBytes o k := by
  show sectionBytes (appendBytes o id []) k = _
  rw [sectionBytes_appendBytes]
  split
  · rename_i h; rw [h, List.append_nil]
  · rfl

@[simp] theorem sectionBytes_defineAt (o : AsmObject) (n : String) (id k : SectionId) :
    sectionBytes (defineAt o n id) k = sectionBytes o k := rfl

end Sys2Proof.Machine
end

