-- ==== Sys2Proof/Laws/Frames.lean ====
section
/-! SUPPORT. Laws/Frames.lean: what the ways an instruction can end leave unchanged, in the terms of Safety.lean; what a step can
do; and constants read as values. Cited by the provers instead of unfolding. -/

namespace Sys2Proof.Machine

/-! ## How an instruction ends -/

/-- A register result: nothing but rc and pc may differ. -/
theorem onlyRegWritten_advance_writeReg (s : State) (rc : Reg) (v : Word) : OnlyRegWritten rc s (advance (writeReg s rc v)) :=
  ⟨fun r hr => by simp [hr], rfl, rfl, rfl, ⟨rfl, rfl, rfl⟩, fun _ => rfl, rfl, rfl⟩

theorem readReg_advance_writeReg (s : State) (rc : Reg) (v : Word) : readReg (advance (writeReg s rc v)) rc = v := by simp

/-- A comparison: nothing but flag and pc may differ. -/
theorem onlyFlagWritten_advance_writeFlag (s : State) (b : Bool) : OnlyFlagWritten s (advance (writeFlag s b)) :=
  ⟨fun _ => rfl, rfl, rfl, ⟨rfl, rfl, rfl⟩, fun _ => rfl, rfl, rfl⟩

/-- A jump: nothing but pc may differ. -/
theorem onlyTargetsWritten_setPc (s : State) (a : Addr) : OnlyTargetsWritten s (setPc s a) :=
  ⟨fun _ => rfl, rfl, ⟨rfl, rfl, rfl⟩, fun _ => rfl, rfl, rfl⟩

/-- A transfer of (pc, ib): nothing else may differ. -/
theorem onlyTargetsWritten_setPc_setIb (s : State) (npc nib : Addr) : OnlyTargetsWritten s (setPc (setIb s nib) npc) :=
  ⟨fun _ => rfl, rfl, ⟨rfl, rfl, rfl⟩, fun _ => rfl, rfl, rfl⟩

/-- Taking a trap is trap entry (R164), and the run has then ended. -/
theorem entersTrap_takeTrap (s : State) (c : Cause) : EntersTrap c s (takeTrap s c) :=
  ⟨⟨rfl, rfl, rfl, fun _ => rfl, rfl, rfl, fun _ => rfl⟩, rfl, rfl, rfl⟩

/-! ## What a step can do -/

/-- A step reports the end of the run, stops at the fetch, takes the trap of an undecoded packet, or is exec of the decoded
instruction. -/
theorem step_cases (s : State) :
    (s.trapped = true ∧ step s = .fault (.trapped s.tcause s.tpc)) ∨
      (s.trapped = false ∧ fetch s = .error .fetchOutsideMap ∧ step s = .fault .fetchOutsideMap) ∨
      (∃ w e, s.trapped = false ∧ fetch s = .ok w ∧ decodePacket w = .error e ∧
        step s = .next (takeTrap s .illegalInstruction)) ∨
      ∃ w i, s.trapped = false ∧ fetch s = .ok w ∧ decodePacket w = .ok i ∧ step s = exec i s := by
  unfold step runEnded
  cases ht : s.trapped with
  | true => exact .inl ⟨rfl, rfl⟩
  | false =>
    refine .inr ?_
    cases hf : fetch s with
    | error f =>
      have : f = .fetchOutsideMap := by
        unfold fetch at hf
        split at hf
        · cases hf
        · injection hf with hf; exact hf.symm
      subst this
      exact .inl ⟨rfl, rfl, rfl⟩
    | ok w =>
      cases hd : decodePacket w with
      | error e => exact .inr (.inl ⟨w, e, rfl, rfl, hd, by simp [hd, takeUndecoded]⟩)
      | ok i => exact .inr (.inr ⟨w, i, rfl, rfl, hd, by simp [hd]⟩)

/-! ## Addresses and constants as claims write them -/

theorem uimm_mul_ofNat (u k : Nat) : uimm u * BitVec.ofNat 64 k = BitVec.ofNat 64 (u * k) := by
  unfold uimm; rw [← BitVec.ofNat_mul]

theorem ib64Addr_eq (s : State) (u : Nat) : ib64Addr s u = s.ib + BitVec.ofNat 64 (u * 8) := by
  unfold ib64Addr; rw [← uimm_mul_ofNat]; rfl

theorem ib32Addr_eq (s : State) (u : Nat) : ib32Addr s u = s.ib + BitVec.ofNat 64 (u * 4) := by
  unfold ib32Addr; rw [← uimm_mul_ofNat]; rfl

theorem baseAddr_eq (s : State) (r : Reg) (u : Nat) : baseAddr s r u = readReg s r + BitVec.ofNat 64 (u * 8) := by
  unfold baseAddr; rw [← uimm_mul_ofNat]; rfl

/-- Four bytes that are those of a constant read as it. -/
theorem read32_of_holds {s : State} {a : Addr} {v : BitVec 32} (h : Holds32 s a v) : read32 s a = v := by
  unfold read32
  have z : a + BitVec.ofNat 64 0 = a := by simp
  have e0 := h 0 (by omega)
  rw [z] at e0
  have e3 : readByte s (a + 3) = _ := h 3 (by omega)
  have e2 : readByte s (a + 2) = _ := h 2 (by omega)
  have e1 : readByte s (a + 1) = _ := h 1 (by omega)
  rw [e3, e2, e1, e0]
  apply BitVec.eq_of_getLsbD_eq; intro i hi
  simp only [BitVec.getLsbD_append, BitVec.getLsbD_extractLsb']
  repeat' split
  all_goals (rw [decide_eq_true (by omega), Bool.true_and]; congr 1; omega)

/-- Eight bytes that are those of a constant read as it. -/
theorem read64_of_holds {s : State} {a : Addr} {v : Word} (h : Holds64 s a v) : read64 s a = v := by
  have hlo : Holds32 s a (v.extractLsb' 0 32) := fun k hk => by
    rw [h k (by omega)]
    apply BitVec.eq_of_getLsbD_eq; intro i hi
    simp only [BitVec.getLsbD_extractLsb']
    rw [decide_eq_true hi, decide_eq_true (by omega : 8 * k + i < 32)]; simp
  have hhi : Holds32 s (a + 4) (v.extractLsb' 32 32) := fun k hk => by
    have e := h (4 + k) (by omega)
    rw [BitVec.ofNat_add, ← BitVec.add_assoc] at e
    refine Eq.trans e ?_
    apply BitVec.eq_of_getLsbD_eq; intro i hi
    simp only [BitVec.getLsbD_extractLsb']
    rw [decide_eq_true hi, decide_eq_true (by omega : 8 * k + i < 32)]
    simp only [Bool.true_and]; congr 1; omega
  unfold read64
  rw [read32_of_holds hlo, read32_of_holds hhi]
  apply BitVec.eq_of_getLsbD_eq; intro i hi
  simp only [BitVec.getLsbD_append, BitVec.getLsbD_extractLsb']
  split
  all_goals (rw [decide_eq_true (by omega), Bool.true_and]; congr 1; omega)

/-- The word read at an address is the one its four bytes hold. -/
theorem holds32_read32 (s : State) (a : Addr) : Holds32 s a (read32 s a) := by
  have z : a + BitVec.ofNat 64 0 = a := by simp
  intro k hk
  unfold read32
  apply BitVec.eq_of_getLsbD_eq; intro i hi
  have hk' : k = 0 ∨ k = 1 ∨ k = 2 ∨ k = 3 := by omega
  rcases hk' with rfl | rfl | rfl | rfl <;>
    simp only [BitVec.getLsbD_extractLsb', BitVec.getLsbD_append, decide_eq_true hi, Bool.true_and, z] <;>
    (repeat' split) <;> first | omega | rfl | (exact congrArg _ (by omega))

/-- The word read at an address is the one its eight bytes hold. -/
theorem holds64_read64 (s : State) (a : Addr) : Holds64 s a (read64 s a) := by
  intro k hk
  unfold read64
  apply BitVec.eq_of_getLsbD_eq; intro i hi
  rw [BitVec.getLsbD_extractLsb', BitVec.getLsbD_append, decide_eq_true hi, Bool.true_and]
  by_cases h : k < 4
  · rw [if_pos (by omega), holds32_read32 s a k h, BitVec.getLsbD_extractLsb', decide_eq_true hi, Bool.true_and]
  · obtain ⟨j, rfl⟩ : ∃ j, k = 4 + j := ⟨k - 4, by omega⟩
    have e := holds32_read32 s (a + 4) j (by omega)
    rw [if_neg (by omega), BitVec.ofNat_add, ← BitVec.add_assoc]
    refine (congrArg (fun b => BitVec.getLsbD b i) e).trans ?_
    rw [BitVec.getLsbD_extractLsb', decide_eq_true hi, Bool.true_and]; congr 1; omega

end Sys2Proof.Machine
end

