-- ==== Sys2Proof/Laws/PerInstr.lean ====
section
/-! SUPPORT. Laws/PerInstr.lean: one family of facts per instruction: the fixed bits of every encoding are the row's `match`
under the row's `mask` (spec/opcode_table.json, spec/30_encoding.md R60, R61), whatever the operands. -/

namespace Sys2Proof.Laws

/-- The row's `mask`: opcode and size, and fun3 for compare and logic (R60, R61). -/
def rowMask (i : Instr) : Packet :=
  match i with
  | .brk _ => 0x007F
  | .j _ => 0x007F
  | .b _ => 0x007F
  | .ibj _ => 0x007F
  | .jalib _ _ => 0x007F
  | .jtlib _ _ => 0x007F
  | .movib _ _ => 0x007F
  | .movi _ _ => 0x007F
  | .addi _ _ => 0x007F
  | .srli _ _ => 0x007F
  | .srai _ _ => 0x007F
  | .slli _ _ => 0x007F
  | .addib _ _ => 0x007F
  | .leapc _ _ => 0x007F
  | .loadpc _ _ => 0x007F
  | .storepc _ _ => 0x007F
  | .load _ _ _ => 0x007F
  | .store _ _ _ => 0x007F
  | .compareLt _ _ => 0x03FF
  | .compareGe _ _ => 0x03FF
  | .compareEq _ _ => 0x03FF
  | .compareNe _ _ => 0x03FF
  | .compareLtu _ _ => 0x03FF
  | .compareGeu _ _ => 0x03FF
  | .compareMov _ _ => 0x03FF
  | .compareUnassigned _ _ => 0x03FF
  | .logicMov _ _ => 0x03FF
  | .logicNot _ _ => 0x03FF
  | .logicNeg _ _ => 0x03FF
  | .logicBswap _ _ => 0x03FF
  | .logicCtz _ _ => 0x03FF
  | .logicClz _ _ => 0x03FF
  | .logicCtpop _ _ => 0x03FF
  | .logicSext _ _ => 0x03FF
  | .pin _ _ _ => 0x007F
  | .and _ _ _ => 0x007F
  | .or _ _ _ => 0x007F
  | .xor _ _ _ => 0x007F
  | .add _ _ _ => 0x007F
  | .srl _ _ _ => 0x007F
  | .sra _ _ _ => 0x007F
  | .sll _ _ _ => 0x007F
  | .sub _ _ _ => 0x007F
  | .mul _ _ _ => 0x007F
  | .div _ _ _ => 0x007F
  | .illegal _ => 0x007F

/-- The row's `match` (R60, R61). -/
def rowMatch (i : Instr) : Packet :=
  match i with
  | .brk _ => 0x0000
  | .j _ => 0x0004
  | .b _ => 0x0008
  | .ibj _ => 0x000C
  | .jalib _ _ => 0x0010
  | .jtlib _ _ => 0x0014
  | .movib _ _ => 0x0018
  | .movi _ _ => 0x001C
  | .addi _ _ => 0x0020
  | .srli _ _ => 0x0024
  | .srai _ _ => 0x0028
  | .slli _ _ => 0x002C
  | .addib _ _ => 0x0030
  | .leapc _ _ => 0x0034
  | .loadpc _ _ => 0x0038
  | .storepc _ _ => 0x003C
  | .load _ _ _ => 0x0040
  | .store _ _ _ => 0x0044
  | .compareLt _ _ => 0x0048
  | .compareGe _ _ => 0x00C8
  | .compareEq _ _ => 0x0148
  | .compareNe _ _ => 0x01C8
  | .compareLtu _ _ => 0x0248
  | .compareGeu _ _ => 0x02C8
  | .compareMov _ _ => 0x0348
  | .compareUnassigned _ _ => 0x03C8
  | .logicMov _ _ => 0x004C
  | .logicNot _ _ => 0x00CC
  | .logicNeg _ _ => 0x014C
  | .logicBswap _ _ => 0x01CC
  | .logicCtz _ _ => 0x024C
  | .logicClz _ _ => 0x02CC
  | .logicCtpop _ _ => 0x034C
  | .logicSext _ _ => 0x03CC
  | .pin _ _ _ => 0x0050
  | .and _ _ _ => 0x0054
  | .or _ _ _ => 0x0058
  | .xor _ _ _ => 0x005C
  | .add _ _ _ => 0x0060
  | .srl _ _ _ => 0x0064
  | .sra _ _ _ => 0x0068
  | .sll _ _ _ => 0x006C
  | .sub _ _ _ => 0x0070
  | .mul _ _ _ => 0x0074
  | .div _ _ _ => 0x0078
  | .illegal _ => 0x007C

/-- The fixed bits of an encoding. -/
def MatchMask.Statement (i : Instr) : Prop := encode i &&& rowMask i = rowMatch i

theorem and_opcode_ones (op : BitVec 5) : op &&& 31#5 = op := BitVec.and_allOnes
theorem and_fun3_ones (f : BitVec 3) : f &&& 7#3 = f := BitVec.and_allOnes

theorem packI9_fixed (v : BitVec 9) (op : BitVec 5) : packI9 v op &&& 0x007F = packI9 0 op := by
  unfold packI9
  rw [show (0x007F : Packet) = (0#9 ++ 0b11111#5 ++ 0b11#2 : BitVec 16) from rfl, BitVec.and_append, BitVec.and_append]
  simp [and_opcode_ones]

theorem packR1I6_fixed (rc : Reg) (v : BitVec 6) (op : BitVec 5) : packR1I6 rc v op &&& 0x007F = packI9 0 op := by
  unfold packR1I6 packI9
  rw [show (0x007F : Packet) = (0#3 ++ 0#6 ++ 0b11111#5 ++ 0b11#2 : BitVec 16) from rfl, BitVec.and_append,
    BitVec.and_append, BitVec.and_append]
  simp [and_opcode_ones]

theorem packR2I3_fixed (rc rb : Reg) (v : BitVec 3) (op : BitVec 5) : packR2I3 rc rb v op &&& 0x007F = packI9 0 op := by
  unfold packR2I3 packI9
  rw [show (0x007F : Packet) = (0#3 ++ 0#3 ++ 0#3 ++ 0b11111#5 ++ 0b11#2 : BitVec 16) from rfl, BitVec.and_append,
    BitVec.and_append, BitVec.and_append, BitVec.and_append]
  simp [and_opcode_ones]

theorem packR2I3_fixed_fun3 (rc rb : Reg) (f : BitVec 3) (op : BitVec 5) :
    packR2I3 rc rb f op &&& 0x03FF = packR2I3 .r0 .r0 f op := by
  unfold packR2I3
  rw [show (0x03FF : Packet) = (0#3 ++ 0#3 ++ 0b111#3 ++ 0b11111#5 ++ 0b11#2 : BitVec 16) from rfl, BitVec.and_append,
    BitVec.and_append, BitVec.and_append, BitVec.and_append]
  simp [regBits, and_opcode_ones, and_fun3_ones]

theorem packR3_fixed (rc rb ra : Reg) (op : BitVec 5) : packR3 rc rb ra op &&& 0x007F = packI9 0 op :=
  packR2I3_fixed rc rb (regBits ra) op

theorem MatchMask.brk (uimm9 : Nat) : MatchMask.Statement (.brk uimm9) := packI9_fixed _ _
theorem MatchMask.j (simm9 : Int) : MatchMask.Statement (.j simm9) := packI9_fixed _ _
theorem MatchMask.b (simm9 : Int) : MatchMask.Statement (.b simm9) := packI9_fixed _ _
theorem MatchMask.ibj (simm9 : Int) : MatchMask.Statement (.ibj simm9) := packI9_fixed _ _
theorem MatchMask.jalib (rc : Reg) (uimm6 : Nat) : MatchMask.Statement (.jalib rc uimm6) := packR1I6_fixed _ _ _
theorem MatchMask.jtlib (rc : Reg) (uimm6 : Nat) : MatchMask.Statement (.jtlib rc uimm6) := packR1I6_fixed _ _ _
theorem MatchMask.movib (rc : Reg) (uimm6 : Nat) : MatchMask.Statement (.movib rc uimm6) := packR1I6_fixed _ _ _
theorem MatchMask.movi (rc : Reg) (simm6 : Int) : MatchMask.Statement (.movi rc simm6) := packR1I6_fixed _ _ _
theorem MatchMask.addi (rc : Reg) (simm6 : Int) : MatchMask.Statement (.addi rc simm6) := packR1I6_fixed _ _ _
theorem MatchMask.srli (rc : Reg) (uimm6 : Nat) : MatchMask.Statement (.srli rc uimm6) := packR1I6_fixed _ _ _
theorem MatchMask.srai (rc : Reg) (uimm6 : Nat) : MatchMask.Statement (.srai rc uimm6) := packR1I6_fixed _ _ _
theorem MatchMask.slli (rc : Reg) (uimm6 : Nat) : MatchMask.Statement (.slli rc uimm6) := packR1I6_fixed _ _ _
theorem MatchMask.addib (rc : Reg) (uimm6 : Nat) : MatchMask.Statement (.addib rc uimm6) := packR1I6_fixed _ _ _
theorem MatchMask.leapc (rc : Reg) (uimm6 : Nat) : MatchMask.Statement (.leapc rc uimm6) := packR1I6_fixed _ _ _
theorem MatchMask.loadpc (rc : Reg) (uimm6 : Nat) : MatchMask.Statement (.loadpc rc uimm6) := packR1I6_fixed _ _ _
theorem MatchMask.storepc (rc : Reg) (uimm6 : Nat) : MatchMask.Statement (.storepc rc uimm6) := packR1I6_fixed _ _ _
theorem MatchMask.load (rc rb : Reg) (uimm3 : Nat) : MatchMask.Statement (.load rc rb uimm3) := packR2I3_fixed _ _ _ _
theorem MatchMask.store (rc rb : Reg) (uimm3 : Nat) : MatchMask.Statement (.store rc rb uimm3) := packR2I3_fixed _ _ _ _
theorem MatchMask.compareLt (rc rb : Reg) : MatchMask.Statement (.compareLt rc rb) := packR2I3_fixed_fun3 _ _ _ _
theorem MatchMask.compareGe (rc rb : Reg) : MatchMask.Statement (.compareGe rc rb) := packR2I3_fixed_fun3 _ _ _ _
theorem MatchMask.compareEq (rc rb : Reg) : MatchMask.Statement (.compareEq rc rb) := packR2I3_fixed_fun3 _ _ _ _
theorem MatchMask.compareNe (rc rb : Reg) : MatchMask.Statement (.compareNe rc rb) := packR2I3_fixed_fun3 _ _ _ _
theorem MatchMask.compareLtu (rc rb : Reg) : MatchMask.Statement (.compareLtu rc rb) := packR2I3_fixed_fun3 _ _ _ _
theorem MatchMask.compareGeu (rc rb : Reg) : MatchMask.Statement (.compareGeu rc rb) := packR2I3_fixed_fun3 _ _ _ _
theorem MatchMask.compareMov (rc rb : Reg) : MatchMask.Statement (.compareMov rc rb) := packR2I3_fixed_fun3 _ _ _ _
theorem MatchMask.compareUnassigned (rc rb : Reg) : MatchMask.Statement (.compareUnassigned rc rb) := packR2I3_fixed_fun3 _ _ _ _
theorem MatchMask.logicMov (rc rb : Reg) : MatchMask.Statement (.logicMov rc rb) := packR2I3_fixed_fun3 _ _ _ _
theorem MatchMask.logicNot (rc rb : Reg) : MatchMask.Statement (.logicNot rc rb) := packR2I3_fixed_fun3 _ _ _ _
theorem MatchMask.logicNeg (rc rb : Reg) : MatchMask.Statement (.logicNeg rc rb) := packR2I3_fixed_fun3 _ _ _ _
theorem MatchMask.logicBswap (rc rb : Reg) : MatchMask.Statement (.logicBswap rc rb) := packR2I3_fixed_fun3 _ _ _ _
theorem MatchMask.logicCtz (rc rb : Reg) : MatchMask.Statement (.logicCtz rc rb) := packR2I3_fixed_fun3 _ _ _ _
theorem MatchMask.logicClz (rc rb : Reg) : MatchMask.Statement (.logicClz rc rb) := packR2I3_fixed_fun3 _ _ _ _
theorem MatchMask.logicCtpop (rc rb : Reg) : MatchMask.Statement (.logicCtpop rc rb) := packR2I3_fixed_fun3 _ _ _ _
theorem MatchMask.logicSext (rc rb : Reg) : MatchMask.Statement (.logicSext rc rb) := packR2I3_fixed_fun3 _ _ _ _
theorem MatchMask.pin (rc rb ra : Reg) : MatchMask.Statement (.pin rc rb ra) := packR3_fixed _ _ _ _
theorem MatchMask.and (rc rb ra : Reg) : MatchMask.Statement (.and rc rb ra) := packR3_fixed _ _ _ _
theorem MatchMask.or (rc rb ra : Reg) : MatchMask.Statement (.or rc rb ra) := packR3_fixed _ _ _ _
theorem MatchMask.xor (rc rb ra : Reg) : MatchMask.Statement (.xor rc rb ra) := packR3_fixed _ _ _ _
theorem MatchMask.add (rc rb ra : Reg) : MatchMask.Statement (.add rc rb ra) := packR3_fixed _ _ _ _
theorem MatchMask.srl (rc rb ra : Reg) : MatchMask.Statement (.srl rc rb ra) := packR3_fixed _ _ _ _
theorem MatchMask.sra (rc rb ra : Reg) : MatchMask.Statement (.sra rc rb ra) := packR3_fixed _ _ _ _
theorem MatchMask.sll (rc rb ra : Reg) : MatchMask.Statement (.sll rc rb ra) := packR3_fixed _ _ _ _
theorem MatchMask.sub (rc rb ra : Reg) : MatchMask.Statement (.sub rc rb ra) := packR3_fixed _ _ _ _
theorem MatchMask.mul (rc rb ra : Reg) : MatchMask.Statement (.mul rc rb ra) := packR3_fixed _ _ _ _
theorem MatchMask.div (rc rb ra : Reg) : MatchMask.Statement (.div rc rb ra) := packR3_fixed _ _ _ _
theorem MatchMask.illegal (uimm9 : Nat) : MatchMask.Statement (.illegal uimm9) := packI9_fixed _ _

end Sys2Proof.Laws
end

