-- ==== Sys2Proof/Tests/Slice0.lean ====
section
/-! SUPPORT. Tests/Slice0.lean: the implementer's own checks. Expected values are the spec's: packets from
spec/30_encoding.md R60, R61, R65 and spec/95_test_vectors.md section 2, results from its sections 3 to 9. -/

namespace Sys2Proof.Tests

open Sys2Proof.Machine

/-! ## WellFormed refuses an ill-formed term for each check (R56) -/

theorem test_wellFormed_refuses_uimm9 : wellFormed (.brk 512) = false := by decide
theorem test_wellFormed_refuses_illegal_uimm9 : wellFormed (.illegal 512) = false := by decide
theorem test_wellFormed_refuses_simm9_high : wellFormed (.j 256) = false := by decide
theorem test_wellFormed_refuses_simm9_low : wellFormed (.b (-257)) = false := by decide
theorem test_wellFormed_refuses_uimm6 : wellFormed (.jalib .r7 64) = false := by decide
theorem test_wellFormed_refuses_simm6_high : wellFormed (.movi .r1 32) = false := by decide
theorem test_wellFormed_refuses_simm6_low : wellFormed (.addi .r1 (-33)) = false := by decide
theorem test_wellFormed_refuses_uimm3 : wellFormed (.load .r1 .r2 8) = false := by decide
theorem test_wellFormed_accepts_bounds :
    wellFormed (.brk 511) ∧ wellFormed (.j 255) ∧ wellFormed (.j (-256)) ∧ wellFormed (.slli .r0 63) ∧
      wellFormed (.movi .r0 31) ∧ wellFormed (.movi .r0 (-32)) ∧ wellFormed (.store .r0 .r0 7) := by decide

/-! ## Decoding: one packet per constructor, its bits written out from R60 and R61 -/

theorem test_decode_brk : decodePacket 0b000000010_00000_00 = .ok (.brk 2) := by rfl
theorem test_decode_j : decodePacket 0b100000000_00001_00 = .ok (.j (-256)) := by rfl
theorem test_decode_b : decodePacket 0b111111100_00010_00 = .ok (.b (-4)) := by rfl
theorem test_decode_ibj : decodePacket 0b000000001_00011_00 = .ok (.ibj 1) := by rfl
theorem test_decode_jalib : decodePacket 0b111_111111_00100_00 = .ok (.jalib .r7 63) := by rfl
theorem test_decode_jtlib : decodePacket 0b111_000010_00101_00 = .ok (.jtlib .r7 2) := by rfl
theorem test_decode_movib : decodePacket 0b010_000001_00110_00 = .ok (.movib .r2 1) := by rfl
theorem test_decode_movi : decodePacket 0b001_111001_00111_00 = .ok (.movi .r1 (-7)) := by rfl
theorem test_decode_addi : decodePacket 0b100_011111_01000_00 = .ok (.addi .r4 31) := by rfl
theorem test_decode_srli : decodePacket 0b001_111111_01001_00 = .ok (.srli .r1 63) := by rfl
theorem test_decode_srai : decodePacket 0b001_000001_01010_00 = .ok (.srai .r1 1) := by rfl
theorem test_decode_slli : decodePacket 0b001_000100_01011_00 = .ok (.slli .r1 4) := by rfl
theorem test_decode_addib : decodePacket 0b011_000100_01100_00 = .ok (.addib .r3 4) := by rfl
theorem test_decode_leapc : decodePacket 0b101_000110_01101_00 = .ok (.leapc .r5 6) := by rfl
theorem test_decode_loadpc : decodePacket 0b100_000110_01110_00 = .ok (.loadpc .r4 6) := by rfl
theorem test_decode_storepc : decodePacket 0b011_000101_01111_00 = .ok (.storepc .r3 5) := by rfl
theorem test_decode_load : decodePacket 0b011_001_001_10000_00 = .ok (.load .r3 .r1 1) := by rfl
theorem test_decode_store : decodePacket 0b010_001_001_10001_00 = .ok (.store .r2 .r1 1) := by rfl
theorem test_decode_compareLt : decodePacket 0b001_010_000_10010_00 = .ok (.compareLt .r1 .r2) := by rfl
theorem test_decode_compareGe : decodePacket 0b001_010_001_10010_00 = .ok (.compareGe .r1 .r2) := by rfl
theorem test_decode_compareEq : decodePacket 0b001_010_010_10010_00 = .ok (.compareEq .r1 .r2) := by rfl
theorem test_decode_compareNe : decodePacket 0b001_010_011_10010_00 = .ok (.compareNe .r1 .r2) := by rfl
theorem test_decode_compareLtu : decodePacket 0b001_010_100_10010_00 = .ok (.compareLtu .r1 .r2) := by rfl
theorem test_decode_compareGeu : decodePacket 0b001_010_101_10010_00 = .ok (.compareGeu .r1 .r2) := by rfl
theorem test_decode_compareMov : decodePacket 0b011_100_110_10010_00 = .ok (.compareMov .r3 .r4) := by rfl
theorem test_decode_compareUnassigned : decodePacket 0b001_010_111_10010_00 = .ok (.compareUnassigned .r1 .r2) := by rfl
theorem test_decode_logicMov : decodePacket 0b001_010_000_10011_00 = .ok (.logicMov .r1 .r2) := by rfl
theorem test_decode_logicNot : decodePacket 0b001_010_001_10011_00 = .ok (.logicNot .r1 .r2) := by rfl
theorem test_decode_logicNeg : decodePacket 0b001_010_010_10011_00 = .ok (.logicNeg .r1 .r2) := by rfl
theorem test_decode_logicBswap : decodePacket 0b001_010_011_10011_00 = .ok (.logicBswap .r1 .r2) := by rfl
theorem test_decode_logicCtz : decodePacket 0b001_010_100_10011_00 = .ok (.logicCtz .r1 .r2) := by rfl
theorem test_decode_logicClz : decodePacket 0b001_010_101_10011_00 = .ok (.logicClz .r1 .r2) := by rfl
theorem test_decode_logicCtpop : decodePacket 0b001_010_110_10011_00 = .ok (.logicCtpop .r1 .r2) := by rfl
theorem test_decode_logicSext : decodePacket 0b001_010_111_10011_00 = .ok (.logicSext .r1 .r2) := by rfl
theorem test_decode_pin : decodePacket 0b111_010_001_10100_00 = .ok (.pin .r7 .r2 .r1) := by rfl
theorem test_decode_and : decodePacket 0b001_010_011_10101_00 = .ok (.and .r1 .r2 .r3) := by rfl
theorem test_decode_or : decodePacket 0b001_010_011_10110_00 = .ok (.or .r1 .r2 .r3) := by rfl
theorem test_decode_xor : decodePacket 0b001_010_011_10111_00 = .ok (.xor .r1 .r2 .r3) := by rfl
theorem test_decode_add : decodePacket 0b101_101_100_11000_00 = .ok (.add .r5 .r5 .r4) := by rfl
theorem test_decode_srl : decodePacket 0b001_010_011_11001_00 = .ok (.srl .r1 .r2 .r3) := by rfl
theorem test_decode_sra : decodePacket 0b001_010_011_11010_00 = .ok (.sra .r1 .r2 .r3) := by rfl
theorem test_decode_sll : decodePacket 0b001_010_011_11011_00 = .ok (.sll .r1 .r2 .r3) := by rfl
theorem test_decode_sub : decodePacket 0b001_010_011_11100_00 = .ok (.sub .r1 .r2 .r3) := by rfl
theorem test_decode_mul : decodePacket 0b001_010_011_11101_00 = .ok (.mul .r1 .r2 .r3) := by rfl
theorem test_decode_div : decodePacket 0b001_010_011_11110_00 = .ok (.div .r1 .r2 .r3) := by rfl
theorem test_decode_illegal : decodePacket 0b111111111_11111_00 = .ok (.illegal 511) := by rfl

/-- 0xFFFF, 0x0001 and 0x0002 are first packets of longer instructions; 0x29E1 is no `add` (R58, R62). -/
theorem test_decode_long_forms :
    decodePacket 0xFFFF = .error (.longForm .bits128) ∧ decodePacket 0x0001 = .error (.longForm .bits32) ∧
      decodePacket 0x0002 = .error (.longForm .bits64) ∧ decodePacket 0x29E1 = .error (.longForm .bits32) := by
  refine ⟨?_, ?_, ?_, ?_⟩ <;> rfl

/-- The byte at the lower address holds bits 7:0 (R39), and a lone byte is no packet. -/
theorem test_decode_bytes :
    decode [0x1C, 0xA0, 0x9C] = .ok (.movi .r5 0, [0x9C]) ∧ decode [0x1C] = .error .truncated := by
  refine ⟨?_, ?_⟩ <;> rfl

theorem test_encode_examples :
    encode (.movi .r5 0) = 0xA01C ∧ encode (.addi .r4 (-1)) = 0x9FA0 ∧ encode (.add .r5 .r5 .r4) = 0xB660 ∧
      encode (.b (-4)) = 0xFE08 ∧ encode (.load .r3 .r1 1) = 0x64C0 ∧ encode (.or .r0 .r0 .r0) = 0x0058 ∧
      encode (.illegal 511) = 0xFFFC ∧ encode (.j (-1)) = 0xFF84 := by decide

/-! ## Small states -/

/-- The state after, when there is one. -/
def nextOf (o : Result) : Option State :=
  match o with
  | .next t => some t
  | .fault _ => none
  | .refused _ => none

/-- The fault, when there is one. -/
def faultOf (o : Result) : Option Fault :=
  match o with
  | .next _ => none
  | .fault f => some f
  | .refused _ => none

/-- A register after. -/
def regAfter (r : Reg) (o : Result) : Option Word := (nextOf o).map (fun t => readReg t r)
/-- (pc, ib) after. -/
def targetsAfter (o : Result) : Option (Addr × Addr) := (nextOf o).map (fun t => (t.pc, t.ib))
/-- flag after. -/
def flagAfter (o : Result) : Option Bool := (nextOf o).map (fun t => t.flag)
/-- The eight bytes at an address after. -/
def wordAfter (a : Addr) (o : Result) : Option Word := (nextOf o).map (fun t => read64 t a)
/-- (tpc, tcause) after a trap that left r3 at `v`. -/
def trapAfter (o : Result) : Option (Addr × Cause × Word) := (nextOf o).map (fun t => (t.tpc, t.tcause, readReg t .r3))

/-- The fixture of spec/95_test_vectors.md: pc = 0x1000, ib = 0x2000 and these r1, r2, r3. -/
def fix (a b c : Word) : State := writeReg (writeReg (writeReg State.reset .r1 a) .r2 b) .r3 c

/-- Eight bytes placed in memory, little-endian. -/
def put64 (s : State) (a : Addr) (v : Word) : State :=
  (List.range 8).foldl (fun t k => writeByte t (a + BitVec.ofNat 64 k) (byteOf v k)) s

/-- A map with no data anywhere near 0x9000. -/
def smallMap : List Region :=
  [ { base := 0x1000, size := 0x100, perm := Perm.text }, { base := 0x2000, size := 0x200, perm := Perm.const },
    { base := 0x3000, size := 0x40, perm := Perm.data }, { base := 0x4000, size := 8, perm := Perm.mmio } ]

/-- The fixture with the small map. -/
def fixSmall (a b c : Word) : State := { fix a b c with map := smallMap }

/-! ## Control transfer (spec/95 section 3) -/

theorem test_break_saves_pc_and_cause :
    (nextOf (exec (.brk 511) (fix 0 0 0))).map (fun t => (t.tpc, t.tcause, t.ib, t.trapped)) =
      some (0x1000, .breakpoint, 0x2000, true) := by decide
theorem test_j_forward : targetsAfter (exec (.j 3) (fix 0 0 0)) = some (0x1008, 0x2000) := by decide
theorem test_j_farthest_back : targetsAfter (exec (.j (-256)) (fix 0 0 0)) = some (0x0E02, 0x2000) := by decide
theorem test_b_taken : targetsAfter (exec (.b (-4)) { fix 0 0 0 with pc := 0x100C, flag := true }) = some (0x1006, 0x2000) := by
  decide
theorem test_b_not_taken : targetsAfter (exec (.b 3) (fix 0 0 0)) = some (0x1002, 0x2000) := by decide
theorem test_ibj_next_block : targetsAfter (exec (.ibj 1) (fix 0 0 0)) = some (0x1002, 0x2040) := by decide
theorem test_ibj_wraps : targetsAfter (exec (.ibj (-256)) (fix 0 0 0)) = some (0x1002, 0xFFFFFFFFFFFFE000) := by decide
theorem test_jalib_call :
    targetsAfter (exec (.jalib .r7 0) (put64 (fix 0 0 0) 0x2000 0x000000400000003C)) = some (0x103E, 0x2040) := by decide
theorem test_jalib_misaligned :
    faultOf (exec (.jalib .r7 0) (put64 (fix 0 0 0) 0x2000 0x0000002000000000)) = some .misalignedTarget := by decide
theorem test_jtlib_no_borrow_between_lanes :
    targetsAfter (exec (.jtlib .r1 0) (put64 (fix 2 0 0) 0x2000 0x0000004000000000)) = some (0x0FFE, 0x2040) := by decide
theorem test_jtlib_return :
    targetsAfter (exec (.jtlib .r1 0)
      { put64 (fix 0x000000400000003C 0 0) 0x2040 0x00000000FFFFFFFC with pc := 0x1044, ib := 0x2040 }) =
      some (0x1004, 0x2000) := by decide

/-! ## Immediates and constants (spec/95 section 4) -/

theorem test_movib_last_slot :
    regAfter .r2 (exec (.movib .r2 63) (put64 (fix 0 0 0) 0x21F8 0xDEADBEEFCAFEF00D)) = some 0xDEADBEEFCAFEF00D := by decide
theorem test_movib_outside_map : faultOf (exec (.movib .r2 1) { fixSmall 0 0 0 with ib := 0x3000 }) = some .accessOutsideMap := by
  decide
theorem test_movi_negative : regAfter .r1 (exec (.movi .r1 (-7)) (fix 0 0 0)) = some 0xFFFFFFFFFFFFFFF9 := by decide
theorem test_addi_wraps : regAfter .r1 (exec (.addi .r1 (-1)) (fix 0 0 0)) = some 0xFFFFFFFFFFFFFFFF := by decide
theorem test_srli_zero_fill : regAfter .r1 (exec (.srli .r1 4) (fix 0xF00000000000000F 0 0)) = some 0x0F00000000000000 := by
  decide
theorem test_srai_sign_fill : regAfter .r1 (exec (.srai .r1 4) (fix 0xF00000000000000F 0 0)) = some 0xFF00000000000000 := by
  decide
theorem test_slli : regAfter .r1 (exec (.slli .r1 4) (fix 0xF00000000000000F 0 0)) = some 0x00000000000000F0 := by decide
theorem test_addib_sign_extends :
    regAfter .r3 (exec (.addib .r3 1) (put64 (fix 0 0 0) 0x2000 0x8000000012345678)) = some 0xFFFFFFFF80000000 := by decide

/-! ## Memory access (spec/95 section 5) -/

theorem test_leapc_negative :
    regAfter .r3 (exec (.leapc .r3 0) (put64 (fix 0 0 0) 0x2000 0x00000000FFFFF000)) = some 0 := by decide
theorem test_loadpc :
    regAfter .r3 (exec (.loadpc .r3 6) (put64 (put64 (fixSmall 0 0 0) 0x2018 0x2000) 0x3000 0x1122334455667788)) =
      some 0x1122334455667788 := by decide
theorem test_loadpc_misaligned :
    faultOf (exec (.loadpc .r3 6) (put64 (fixSmall 0 0 0) 0x2018 0x2004)) = some .misalignedData := by decide
theorem test_storepc :
    wordAfter 0x3008 (exec (.storepc .r3 5) (put64 (fixSmall 0 0 0xA1A2A3A4A5A6A7A8) 0x2010 0x0000200800000000)) =
      some 0xA1A2A3A4A5A6A7A8 := by decide
theorem test_load_base_is_destination :
    regAfter .r1 (exec (.load .r1 .r1 7) (put64 (fixSmall 0x3000 0 0) 0x3038 0x55)) = some 0x55 := by decide
theorem test_load_wraps :
    regAfter .r3 (exec (.load .r3 .r1 1) (put64 (fix 0xFFFFFFFFFFFFFFF8 0 0) 0 0x77)) = some 0x77 := by decide
theorem test_load_unmapped : faultOf (exec (.load .r3 .r1 0) (fixSmall 0x9000 0 0)) = some .accessOutsideMap := by decide
theorem test_store_little_endian :
    (nextOf (exec (.store .r2 .r1 1) (fixSmall 0x3000 0x0123456789ABCDEF 0))).map
      (fun t => (t.mem.head?, Memory.lookup t.mem 0x300F)) = some (some (0x3008, 0xEF), some 0x01) := by decide
theorem test_store_to_text : faultOf (exec (.store .r2 .r1 0) (fixSmall 0x1000 0 0)) = some .storeToReadOnly := by decide
theorem test_store_to_device :
    (nextOf (exec (.store .r2 .r1 0) (fixSmall 0x4000 9 0))).map (fun t => (t.mem, t.devLog)) =
      some ([], [.write 0x4000 9]) := by decide

/-! ## Compare (spec/95 section 6) -/

theorem test_compareLt_signed : flagAfter (exec (.compareLt .r1 .r2) (fix 0xFFFFFFFFFFFFFFFF 1 0)) = some true := by decide
theorem test_compareGe_signed : flagAfter (exec (.compareGe .r1 .r2) (fix 0xFFFFFFFFFFFFFFFF 1 0)) = some false := by decide
theorem test_compareEq : flagAfter (exec (.compareEq .r1 .r2) (fix 5 5 0)) = some true := by decide
theorem test_compareNe : flagAfter (exec (.compareNe .r1 .r2) (fix 5 5 0)) = some false := by decide
theorem test_compareLtu_unsigned : flagAfter (exec (.compareLtu .r1 .r2) (fix 0xFFFFFFFFFFFFFFFF 1 0)) = some false := by decide
theorem test_compareGeu_unsigned : flagAfter (exec (.compareGeu .r1 .r2) (fix 0xFFFFFFFFFFFFFFFF 1 0)) = some true := by decide
theorem test_cmov_set : regAfter .r1 (exec (.compareMov .r1 .r2) { fix 0xAA 0xBB 0 with flag := true }) = some 0xBB := by decide
theorem test_cmov_clear : regAfter .r1 (exec (.compareMov .r1 .r2) (fix 0xAA 0xBB 0)) = some 0xAA := by decide
theorem test_compareUnassigned_traps :
    trapAfter (exec (.compareUnassigned .r3 .r2) (fix 1 2 3)) = some (0x1000, .illegalInstruction, 3) := by decide

/-! ## Logic (spec/95 section 7) -/

theorem test_logicMov : regAfter .r1 (exec (.logicMov .r1 .r2) (fix 0 0x1234 0)) = some 0x1234 := by decide
theorem test_logicNot : regAfter .r1 (exec (.logicNot .r1 .r2) (fix 0 0xFF7F 0)) = some 0xFFFFFFFFFFFF0080 := by decide
theorem test_logicNeg : regAfter .r1 (exec (.logicNeg .r1 .r2) (fix 0 0x8000000000000000 0)) = some 0x8000000000000000 := by
  decide
theorem test_logicBswap : regAfter .r1 (exec (.logicBswap .r1 .r2) (fix 0 0x0123456789ABCDEF 0)) = some 0xEFCDAB8967452301 := by
  decide
theorem test_logicCtz : regAfter .r1 (exec (.logicCtz .r1 .r2) (fix 0 0x80000000 0)) = some 31 := by decide
theorem test_logicCtz_zero : regAfter .r1 (exec (.logicCtz .r1 .r2) (fix 0 0 0)) = some 64 := by decide
theorem test_logicClz : regAfter .r1 (exec (.logicClz .r1 .r2) (fix 0 0x0123456789ABCDEF 0)) = some 7 := by decide
theorem test_logicCtpop : regAfter .r1 (exec (.logicCtpop .r1 .r2) (fix 0 0x0123456789ABCDEF 0)) = some 32 := by decide
/-- The three candidate columns of spec/95 section 7; none is asserted of the hardware (D14). -/
theorem test_sext_columns :
    signExtendFrom .w8 0xFF7F = 0x7F ∧ signExtendFrom .w16 0xFF7F = 0xFFFFFFFFFFFFFF7F ∧
      signExtendFrom .w32 0x80000000 = 0xFFFFFFFF80000000 := by decide

/-! ## Three registers (spec/95 section 8) -/

theorem test_pin :
    regAfter .r3 (exec (.pin .r3 .r2 .r1) { fix 0x1080 0x20C0 0 with pc := 0x1004 }) = some 0xFFFFFF40FFFFFF86 := by decide
theorem test_pin_same_register :
    regAfter .r1 (exec (.pin .r1 .r1 .r1) (fix 0x1000 0 0)) = some 0x0000100000000002 := by decide
theorem test_and : regAfter .r1 (exec (.and .r1 .r2 .r3) (fix 0 0xFF00FF00FF00FF00 0x0FF00FF00FF00FF0)) = some 0x0F000F000F000F00 := by
  decide
theorem test_or : regAfter .r1 (exec (.or .r1 .r2 .r3) (fix 0 0xFF00FF00FF00FF00 0x0FF00FF00FF00FF0)) = some 0xFFF0FFF0FFF0FFF0 := by
  decide
theorem test_xor : regAfter .r1 (exec (.xor .r1 .r2 .r3) (fix 0 0xFF00FF00FF00FF00 0x0FF00FF00FF00FF0)) = some 0xF0F0F0F0F0F0F0F0 := by
  decide
theorem test_add_overflow : regAfter .r1 (exec (.add .r1 .r2 .r3) (fix 0 0x7FFFFFFFFFFFFFFF 1)) = some 0x8000000000000000 := by
  decide
theorem test_srl_count_mod_64 :
    regAfter .r1 (exec (.srl .r1 .r2 .r3) (fix 0 0xFF00FF00FF00FF00 0x0FF00FF00FF00FF0)) = some 0x000000000000FF00 := by decide
theorem test_sra_count_mod_64 :
    regAfter .r1 (exec (.sra .r1 .r2 .r3) (fix 0 0xFF00FF00FF00FF00 0x0FF00FF00FF00FF0)) = some 0xFFFFFFFFFFFFFF00 := by decide
theorem test_sll_count_mod_64 :
    regAfter .r1 (exec (.sll .r1 .r2 .r3) (fix 0 0x0123456789ABCDEF 0x1F04)) = some 0x123456789ABCDEF0 := by decide
theorem test_sub_order : regAfter .r1 (exec (.sub .r1 .r2 .r3) (fix 0 5 7)) = some 0xFFFFFFFFFFFFFFFE := by decide
theorem test_mul_low : regAfter .r1 (exec (.mul .r1 .r2 .r3) (fix 0 0x0123456789ABCDEF 0x1F04)) = some 0x49F49F49F49F28BC := by
  decide
theorem test_div_toward_zero : regAfter .r1 (exec (.div .r1 .r2 .r3) (fix 0 0xFFFFFFFFFFFFFFF9 2)) = some 0xFFFFFFFFFFFFFFFD := by
  decide
theorem test_div_overflow_wraps :
    regAfter .r1 (exec (.div .r1 .r2 .r3) (fix 0 0x8000000000000000 0xFFFFFFFFFFFFFFFF)) = some 0x8000000000000000 := by decide
theorem test_div_by_zero : trapAfter (exec (.div .r3 .r1 .r2) (fix 5 0 7)) = some (0x1000, .divideByZero, 7) := by decide
theorem test_illegal : trapAfter (exec (.illegal 0) (fix 1 2 3)) = some (0x1000, .illegalInstruction, 3) := by decide

/-! ## Steps -/

/-- 0xB660, `add.i64 r5, r5, r4`, as the first instruction after reset. -/
theorem test_step_runs_the_first_instruction :
    targetsAfter (step (State.reset.withFetchWord 16 0xB660)) = some (0x1002, 0x2000) := by decide
/-- 0xFFFF raises IllegalInstruction with tpc = pc, and the run has then ended (R58, R168). -/
theorem test_step_long_form_traps :
    trapAfter (step (State.reset.withFetchWord 16 0xFFFF)) = some (0x1000, .illegalInstruction, 0) ∧
      ((nextOf (step (State.reset.withFetchWord 16 0xFFFF))).bind (fun t => faultOf (step t))) =
        some (.trapped .illegalInstruction 0x1000) := by decide
/-- A packet outside the fetchable bytes is no instruction (R39). -/
theorem test_step_fetch_outside_map : faultOf (step { fixSmall 0 0 0 with pc := 0x3000 }) = some .fetchOutsideMap := by decide
/-- Program P8 (b) of spec/95: `load.i64 r2, 0(r1)` with r1 = 4. -/
theorem test_step_misaligned_load :
    faultOf (step ((fix 4 0 0).withFetchWord 16 0x4440)) = some .misalignedData := by decide

theorem test_reset_in_invariant_parts :
    mapLegal State.reset.map = true ∧ Memory.wf State.reset.mem = true ∧ State.reset.pc.toNat % 2 = 0 := by decide

/-! ## The assembler (spec/45_assembler_abi.md R145, R156) -/

/-- A small file: `.equ k, -2`; a label, `addi.i64 r4, -1` and `.byte k` in `.text`; `.quad 1` in `.const`; a common object. -/
def smallFile : List AsmStatement :=
  [ .directive (.equ "k" (.num (-2))), .label "f", .instr (.addi .r4 (-1)), .directive (.data .byte [.name "k"]),
    .directive (.symbol .global "f" "fc"), .directive (.switch .const), .label "fc", .directive (.data .quad [.num 1]),
    .directive (.common "c" 2 8), .directive (.common "d" 1 8), .directive (.sectionNamed none), .directive (.balign 4 (some 0x58)) ]

/-- The bytes of a section after a file. -/
def bytesOf (f : List AsmStatement) (s : Section) : Option (List (Option Byte)) :=
  (assemble f).map (fun o => sectionBytes o (.listed s))

theorem test_assemble_text : bytesOf smallFile .text = some [some 0xA0, some 0x9F, some 0xFE, some 0x58] := by decide
theorem test_assemble_const :
    bytesOf smallFile .const = some [some 1, some 0, some 0, some 0, some 0, some 0, some 0, some 0] := by decide
theorem test_assemble_bss : bytesOf smallFile .bss = some (List.replicate 9 none) := by decide
theorem test_assemble_symbol :
    (assemble smallFile).bind (fun o => symbolPlaces o { scope := .global, symbolName := "f", constName := "fc" }) =
      some ({ section_ := .listed .text, offset := 0 }, { section_ := .listed .const, offset := 0 }) := by decide
theorem test_assemble_undefined_name : assemble [.directive (.data .byte [.name "k"])] = none := by decide
/-- Aligned to 8, with the default padding 0. -/
theorem test_align_exponent :
    bytesOf [.directive (.zero 1), .directive (.align 3 none none)] .text = some (List.replicate 8 (some 0)) := by decide
theorem test_abi_names :
    abiPlace .fp = abiPlace .s0 ∧ abiPlace .ra = .general linkReg ∧ abiPlace .ib = .immediateBase ∧ calleeSave .ib = true := by
  decide

/-! ## Witnesses: a state and operands that meet every premise of an obligation, each clause at a boundary of its range -/

theorem witness_DecodeOfEncode :
    wellFormed (.brk 511) = true ∧ wellFormed (.ibj (-256)) = true ∧ wellFormed (.storepc .r7 63) = true ∧
      wellFormed (.movi .r0 (-32)) = true ∧ wellFormed (.load .r7 .r7 7) = true := by decide
theorem witness_EncodeOfDecode : decodePacket 0xFFFC = .ok (.illegal 511) ∧ decodePacket 0x0000 = .ok (.brk 0) := ⟨rfl, rfl⟩
theorem witness_SizeFieldTellsLength :
    (0xFFFC#16).extractLsb' 0 2 = 0b00 ∧ (0xFFFD#16).extractLsb' 0 2 = 0b01 ∧ (0xFFFE#16).extractLsb' 0 2 = 0b10 ∧
      (0xFFFF#16).extractLsb' 0 2 = 0b11 := by decide

/-- A first instruction `w` at the last two bytes of the small map's text. -/
def lastPacket (w : Nat) : State := { fixSmall 0 0 0 with pc := 0x10FE }.withFetchWord 16 w

theorem witness_StepRunsDecodedInstruction :
    (lastPacket 0xB660).trapped = false ∧ fetchable (lastPacket 0xB660).map (lastPacket 0xB660).pc = true ∧
      fetchable (lastPacket 0xB660).map ((lastPacket 0xB660).pc + 1) = true ∧
      decodePacket (readByte (lastPacket 0xB660) ((lastPacket 0xB660).pc + 1) ++
        readByte (lastPacket 0xB660) (lastPacket 0xB660).pc) = .ok (.add .r5 .r5 .r4) :=
  ⟨rfl, by decide, by decide, by rfl⟩
/-- Below the text, at its last byte, and past it. -/
theorem witness_FetchOutsideMapStops :
    (fixSmall 0 0 0).trapped = false ∧ fetchable smallMap 0x0FFF = false ∧ fetchable smallMap (0x0FFF + 1) = true ∧
      fetchable smallMap 0x10FF = true ∧ fetchable smallMap (0x10FF + 1) = false := by decide
theorem witness_LongPacketTraps :
    ∀ w ∈ [0x0001, 0x0002, 0x0003, 0xFFFF], (lastPacket w).trapped = false ∧
      fetchable (lastPacket w).map (lastPacket w).pc = true ∧ fetchable (lastPacket w).map ((lastPacket w).pc + 1) = true ∧
      (readByte (lastPacket w) (lastPacket w).pc).extractLsb' 0 2 ≠ 0b00 := by decide

theorem witness_TrapEndsRun :
    EntersTrap .breakpoint State.reset (takeTrap State.reset .breakpoint) ∧
      EntersTrap .divideByZero (fix 1 2 3) (takeTrap (fix 1 2 3) .divideByZero) :=
  ⟨entersTrap_takeTrap _ _, entersTrap_takeTrap _ _⟩

/-- The alignments and both values of flag. -/
theorem witness_JumpTarget_BranchTestsFlag_ImmediateBlockJump :
    State.reset.pc.toNat % 2 = 0 ∧ State.reset.ib.toNat % 64 = 0 ∧ State.reset.flag = false ∧
      ({ State.reset with flag := true } : State).flag = true ∧ (-256 : Int) ≤ -256 ∧ (255 : Int) ≤ 255 := by decide

/-- A constant in slot 63, at the last eight bytes of the small map's constant memory. -/
def lastSlot (v : Word) : State := put64 (fixSmall 0x8000000000000000 0 0x000000400000003C) 0x21F8 v

/-- The same state after `ib` has moved by 4: the constant's last four bytes are outside the map. -/
def straddle (v : Word) : State := { lastSlot v with ib := 0x2004 }

/-- The last slot is readable; a straddling one and one past the end are not. -/
theorem witness_constant_readable_and_not :
    ConstReadableAt (lastSlot 0) 8 ((lastSlot 0).ib + BitVec.ofNat 64 (63 * 8)) ∧
      ConstReadableAt (lastSlot 0) 4 ((lastSlot 0).ib + BitVec.ofNat 64 (63 * 4)) ∧
      ¬ ConstReadableAt (straddle 0) 8 ((straddle 0).ib + BitVec.ofNat 64 (63 * 8)) ∧
      ¬ ConstReadableAt { straddle 0 with ib := 0x2102 } 4 (0x2102 + BitVec.ofNat 64 (63 * 4)) ∧
      ¬ ConstReadableAt (straddle 0) 8 (0x2200 + BitVec.ofNat 64 (0 * 8)) := by decide

/-- jalib: aligned targets; an odd pc; an ib that is no multiple of 64. -/
theorem witness_JalibCalls :
    Holds64 (lastSlot 0x000000400000003C) (0x2000 + BitVec.ofNat 64 (63 * 8)) 0x000000400000003C ∧
    Holds64 (lastSlot 0x0000004000000001) (0x2000 + BitVec.ofNat 64 (63 * 8)) 0x0000004000000001 ∧
    Holds64 (lastSlot 0x0000000100000002) (0x2000 + BitVec.ofNat 64 (63 * 8)) 0x0000000100000002 ∧
    targetsAfter (exec (.jalib .r7 63) (lastSlot 0x000000400000003C)) = some (0x103E, 0x2040) ∧
    faultOf (exec (.jalib .r7 63) (lastSlot 0x0000004000000001)) = some .misalignedTarget ∧
    faultOf (exec (.jalib .r7 63) (lastSlot 0x0000000100000002)) = some .misalignedTarget ∧
    faultOf (exec (.jalib .r7 63) (straddle 0)) = some .accessOutsideMap := by decide

/-- jtlib with r3 as the link (0x3C, 0x40): back by the link's displacements; misaligned; unreadable. -/
theorem witness_JtlibReturns :
    targetsAfter (exec (.jtlib .r3 63) (lastSlot 0x000000000000003C)) = some (0x1000, 0x1FC0) ∧
    faultOf (exec (.jtlib .r3 63) (lastSlot 0x000000400000003D)) = some .misalignedTarget ∧
    faultOf (exec (.jtlib .r3 63) (lastSlot 0x000000410000003C)) = some .misalignedTarget ∧
    faultOf (exec (.jtlib .r3 63) (straddle 0)) = some .accessOutsideMap := by decide

/-- Program P3 of spec/95_test_vectors.md: the call at 0x1002, and the return in the function at 0x1044. -/
def caller : State := { put64 (put64 (fix 0 0 0) 0x2000 0x000000400000003C) 0x2040 0x00000000FFFFFFFC with pc := 0x1002 }
/-- The state the call gives. -/
def callee : State := setPc (setIb (writeReg caller .r7 0x000000400000003C) 0x2040) 0x1040

theorem witness_ReturnResumesAfterCall :
    pcEven caller ∧ ibAligned caller ∧ exec (.jalib .r7 0) caller = .next callee ∧
      readReg (setPc callee 0x1044) .r7 = readReg callee .r7 ∧
      ConstReadableAt (setPc callee 0x1044) 8 (0x2040 + BitVec.ofNat 64 (0 * 8)) ∧
      Holds64 (setPc callee 0x1044) (0x2040 + BitVec.ofNat 64 (0 * 8)) 0x00000000FFFFFFFC ∧
      (0x00000000FFFFFFFC : Word).extractLsb' 0 32 = (callee.pc - 0x1044).extractLsb' 0 32 ∧
      (0x00000000FFFFFFFC : Word).extractLsb' 32 32 = (callee.ib - 0x2040).extractLsb' 0 32 ∧
      Fits32 (caller.pc + 2 - 0x1044) ∧ Fits32 (caller.ib - 0x2040) :=
  ⟨by unfold pcEven; decide, by unfold ibAligned; decide, by rfl, by decide, by decide, by decide, by decide, by decide,
    by decide, by decide⟩

/-- Program P4: pin at 0x1004 with the absolute target (0x1080, 0x20C0), then jtlib with a zero constant. -/
def pinner : State := { put64 (fix 0x1080 0x20C0 0) 0x2008 0 with pc := 0x1004 }

theorem witness_PinThenJtlibGoesToAbsoluteTarget :
    exec (.pin .r3 .r2 .r1) pinner = .next (advance (writeReg pinner .r3 (pinVector pinner 0x20C0 0x1080))) ∧
      ConstReadableAt pinner 8 (pinner.ib + BitVec.ofNat 64 (1 * 8)) ∧ Holds64 pinner (pinner.ib + BitVec.ofNat 64 (1 * 8)) 0 ∧
      (readReg pinner .r1).toNat % 2 = 0 ∧ (readReg pinner .r2).toNat % 64 = 0 ∧
      Fits32 (readReg pinner .r1 - (pinner.pc + 2)) ∧ Fits32 (readReg pinner .r2 - pinner.ib) :=
  ⟨by rfl, by decide, by decide, by decide, by decide, by decide, by decide⟩

/-- movib, and in both halves of the slot addib and leapc, whose 32-bit constants 62 and 63 of a block at 0x2100 it holds. -/
theorem witness_MovibLoadsConstant_AddibAddsConstant_LeapcFormsAddress :
    ConstReadableAt (lastSlot 0x80000000FFFFFFFF) 8 (0x2000 + BitVec.ofNat 64 (63 * 8)) ∧
    Holds64 (lastSlot 0x80000000FFFFFFFF) (0x2000 + BitVec.ofNat 64 (63 * 8)) 0x80000000FFFFFFFF ∧
    ConstReadableAt (lastSlot 0x80000000FFFFFFFF) 4 (0x2100 + BitVec.ofNat 64 (63 * 4)) ∧
    Holds32 (lastSlot 0x80000000FFFFFFFF) (0x2100 + BitVec.ofNat 64 (63 * 4)) 0x80000000 ∧
    Holds32 (lastSlot 0x80000000FFFFFFFF) (0x2100 + BitVec.ofNat 64 (62 * 4)) 0xFFFFFFFF ∧
    regAfter .r1 (exec (.addib .r1 63) { lastSlot 0x80000000FFFFFFFF with ib := 0x2100 }) = some 0x7FFFFFFF80000000 ∧
    regAfter .r1 (exec (.leapc .r1 63) { lastSlot 0x80000000FFFFFFFF with ib := 0x2100 }) = some 0xFFFFFFFF80001000 ∧
    faultOf (exec (.movib .r1 63) (straddle 0)) = some .accessOutsideMap ∧
    faultOf (exec (.addib .r1 63) { straddle 0 with ib := 0x2104 }) = some .accessOutsideMap ∧
    faultOf (exec (.leapc .r1 63) { straddle 0 with ib := 0x2104 }) = some .accessOutsideMap := by decide

theorem witness_MoviLoadsImmediate_AddiAndNegateWrap : (-32 : Int) ≤ -32 ∧ (-32 : Int) ≤ 31 ∧ (31 : Int) ≤ 31 ∧
    regAfter .r1 (exec (.movi .r1 (-32)) (fix 0 0 0)) = some 0xFFFFFFFFFFFFFFE0 ∧
    regAfter .r1 (exec (.addi .r1 31) (fix 0xFFFFFFFFFFFFFFFF 0 0)) = some 30 := by decide
theorem witness_ImmediateShifts : 0 < 64 ∧ 63 < 64 ∧
    regAfter .r1 (exec (.srai .r1 63) (fix 0x8000000000000000 0 0)) = some 0xFFFFFFFFFFFFFFFF ∧
    regAfter .r1 (exec (.slli .r1 63) (fix 3 0 0)) = some 0x8000000000000000 ∧
    regAfter .r1 (exec (.srli .r1 0) (fix 3 0 0)) = some 3 := by decide

/-- Data at 0x3000 .. 0x303F, a device at 0x4000 .. 0x4007: each premise of the load and store clauses, at an edge. -/
theorem witness_LoadReadsMemory_StoreWritesMemory :
    baseAddr (fixSmall 0x3000 0 0) .r1 7 = 0x3038 ∧ DataReadableAt (fixSmall 0 0 0) 0x3038 ∧
    DataWritableAt (fixSmall 0 0 0) 0x3038 ∧ PlainMemoryAt (fixSmall 0 0 0) 0x3038 ∧
    ¬ DataReadableAt (fixSmall 0 0 0) 0x3040 ∧ ¬ MappedAt (fixSmall 0 0 0) 0x3040 ∧
    MappedAt (fixSmall 0 0 0) 0x10F8 ∧ ¬ DataWritableAt (fixSmall 0 0 0) 0x10F8 ∧
    DataReadableAt (fixSmall 0 0 0) 0x4000 ∧ DataWritableAt (fixSmall 0 0 0) 0x4000 ∧ ¬ PlainMemoryAt (fixSmall 0 0 0) 0x4000 ∧
    (0x3039 : Addr).toNat % 8 ≠ 0 ∧ (0x3038 : Addr).toNat % 8 = 0 := by decide

/-- loadpc and storepc in slot 63 of a block at 0x2100: the last data word, a misaligned address, no memory, the text, and a
constant outside the map. -/
theorem witness_LoadpcReadsMemory_StorepcWritesMemory :
    Holds32 (lastSlot 0x0000203800000000) (0x2100 + BitVec.ofNat 64 (63 * 4)) 0x2038 ∧
    ConstReadableAt (lastSlot 0x0000203800000000) 4 (0x2100 + BitVec.ofNat 64 (63 * 4)) ∧
    ((0x1000 : Addr) + (0x2038 : BitVec 32).signExtend 64) = 0x3038 ∧
    wordAfter 0x3038 (exec (.storepc .r3 63) { lastSlot 0x0000203800000000 with ib := 0x2100 }) = some 0x000000400000003C ∧
    faultOf (exec (.loadpc .r3 63) { lastSlot 0x0000203900000000 with ib := 0x2100 }) = some .misalignedData ∧
    faultOf (exec (.storepc .r3 63) { lastSlot 0x0000203900000000 with ib := 0x2100 }) = some .misalignedData ∧
    faultOf (exec (.loadpc .r3 63) { lastSlot 0x0000204000000000 with ib := 0x2100 }) = some .accessOutsideMap ∧
    faultOf (exec (.storepc .r3 63) { lastSlot 0x0000204000000000 with ib := 0x2100 }) = some .accessOutsideMap ∧
    faultOf (exec (.storepc .r3 63) { lastSlot 0x000000F800000000 with ib := 0x2100 }) = some .storeToReadOnly ∧
    faultOf (exec (.storepc .r3 63) { lastSlot 0 with ib := 0x2104 }) = some .accessOutsideMap := by decide

/-- The store of the `LoadAfterStoreReturnsValue` pair: r2 to 8(r1), then a load of the same address through 0(r3). -/
def stored : State := advance (storeBytes 8 (fixSmall 0x3000 0xFEDCBA9876543210 0x3008) 0x3008 0xFEDCBA9876543210)

theorem next_of_nextOf {o : Result} {t : State} (h : nextOf o = some t) : o = .next t := by
  cases o with
  | next u => exact congrArg _ (Option.some.inj h)
  | fault f => cases h
  | refused r => cases h

theorem witness_LoadAfterStoreReturnsValue :
    exec (.store .r2 .r1 1) (fixSmall 0x3000 0xFEDCBA9876543210 0x3008) = .next stored ∧
      baseAddr stored .r3 0 = baseAddr (fixSmall 0x3000 0xFEDCBA9876543210 0x3008) .r1 1 ∧
      DataReadableAt (fixSmall 0 0 0) 0x3008 ∧ PlainMemoryAt (fixSmall 0 0 0) 0x3008 ∧
      regAfter .r4 (exec (.load .r4 .r3 0) stored) = some 0xFEDCBA9876543210 :=
  ⟨next_of_nextOf (by decide +kernel), by decide, by decide, by decide, by decide⟩

/-- Bytes that are data, constants and code at once (no legal map, but a state): all three reads succeed. -/
def mixed : State := { fix 0 0 0 with map := [{ base := 0x3000, size := 8, perm := { x := true, k := true, r := true, w := true, device := false } }] }

theorem memWrite_of_toOption {o : Except Fault State} {t : State} (h : o.toOption = some t) : o = .ok t := by
  cases o with
  | error f => cases h
  | ok u => exact congrArg _ (Option.some.inj h)

theorem witness_NarrowAccessSeesWideWrite :
    memWrite mixed 0x3000 0x0123456789ABCDEF = .ok (storeBytes 8 mixed 0x3000 0x0123456789ABCDEF) ∧ PlainMemoryAt mixed 0x3000 ∧
      constRead32 (storeBytes 8 mixed 0x3000 0x0123456789ABCDEF) 0x3004 = .ok 0x01234567 ∧
      constRead32 (storeBytes 8 mixed 0x3000 0x0123456789ABCDEF) 0x3000 = .ok 0x89ABCDEF ∧
      fetch (setPc (storeBytes 8 mixed 0x3000 0x0123456789ABCDEF) 0x3002) = .ok 0x89AB :=
  ⟨memWrite_of_toOption (by decide +kernel), by decide, by rfl, by rfl, by rfl⟩
theorem witness_ConstantsAlias : ib64Const (lastSlot 0x80000000FFFFFFFF) 63 = .ok 0x80000000FFFFFFFF := by rfl

/-- Counts of 63 and of 64, which counts as 0. -/
theorem witness_RegisterShifts :
    (readReg (fix 0 1 63) .r3).toNat % 64 = 63 ∧ (readReg (fix 0 1 64) .r3).toNat % 64 = 0 ∧
      regAfter .r1 (exec (.sll .r1 .r2 .r3) (fix 0 1 63)) = some 0x8000000000000000 ∧
      regAfter .r1 (exec (.sra .r1 .r2 .r3) (fix 0 0x8000000000000000 64)) = some 0x8000000000000000 := by decide
/-- A zero divisor, a divisor that is not, and the one pair that wraps. -/
theorem witness_SignedDivision :
    readReg (fix 0 7 0) .r3 = 0 ∧ readReg (fix 0 7 1) .r3 ≠ 0 ∧
      (readReg (fix 0 0x8000000000000000 0xFFFFFFFFFFFFFFFF) .r2).toInt = -(2 ^ 63) ∧
      (readReg (fix 0 0x8000000000000000 0xFFFFFFFFFFFFFFFF) .r3).toInt = -1 := by decide

/-- A value whose upper bits all equal the sign of each candidate width. -/
theorem witness_SignExtendsFromOneWidth :
    ∀ i < 64, 7 ≤ i → (readReg (fix 0 0xFFFFFFFFFFFFFF80 0) .r2).getLsbD i = true := by decide
/-- flag set and clear: the conditional move's two values. -/
theorem witness_ConditionalMove :
    (fix 0 0 0).flag = false ∧ ({ fix 0 0 0 with flag := true } : State).flag = true := by decide

theorem inv_reset : StateInvariant State.reset := by
  unfold StateInvariant pcEven ibAligned tpcEven; decide

/-- A step from a state with the invariant; a run of one step; a byte of the text and one of the constants. -/
theorem witness_StepKeepsInvariant_RunKeepsInvariant_RunKeepsCodeAndConstants :
    StateInvariant (State.reset.withFetchWord 16 0xB660) ∧
      step (State.reset.withFetchWord 16 0xB660) = .next (advance (State.reset.withFetchWord 16 0xB660)) ∧
      Sys2Proof.core.run 1 (State.reset.withFetchWord 16 0xB660) = .next (advance (State.reset.withFetchWord 16 0xB660)) ∧
      mapLegal (State.reset.withFetchWord 16 0xB660).map = true ∧
      ReadOnlyByte (State.reset.withFetchWord 16 0xB660).map 0x1000 ∧
      ReadOnlyByte (State.reset.withFetchWord 16 0xB660).map 0x2FFF :=
  ⟨by unfold StateInvariant pcEven ibAligned tpcEven; decide, by rfl, by rfl, by decide, .inl (by decide), .inr (by decide)⟩

/-- A store to the text's last word, in the small map. -/
theorem witness_RunKeepsCodeAndConstants_store :
    mapLegal (fixSmall 0x10C0 0 0).map = true ∧ (baseAddr (fixSmall 0x10C0 0 0) .r1 7).toNat % 8 = 0 ∧
      MappedAt (fixSmall 0x10C0 0 0) (baseAddr (fixSmall 0x10C0 0 0) .r1 7) ∧
      fetchable (fixSmall 0x10C0 0 0).map (baseAddr (fixSmall 0x10C0 0 0) .r1 7 + BitVec.ofNat 64 7) = true := by decide
/-- Each cause, from a packet that raises it, and packets that raise none. -/
theorem witness_TrapsAreTheFive :
    (∀ w ∈ [0x0000, 0x007C, 0x03C8, 0xFFFF, 0x6578, 0xB660], (lastPacket w).trapped = false) ∧
      fetch (lastPacket 0x6578) = .ok 0x6578 ∧ decodePacket 0x6578 = .ok (.div .r3 .r1 .r2) ∧
      readReg (lastPacket 0x6578) .r2 = 0 ∧ decodePacket 0x03C8 = .ok (.compareUnassigned .r0 .r0) :=
  ⟨by decide, by rfl, by rfl, by decide, by rfl⟩

/-- A comparison that changes flag, block transfers that change ib, a register write and a store that change their targets,
a trap entry. -/
theorem witness_FlagWrittenOnlyByComparisons :
    flagAfter (exec (.compareEq .r1 .r2) (fix 5 5 0)) = some true ∧ (fix 5 5 0).flag = false := by decide
theorem witness_IbWrittenOnlyByBlockTransfers :
    (nextOf (exec (.ibj (-1)) (fix 0 0 0))).map (fun t => decide (t.ib ≠ (fix 0 0 0).ib)) = some true ∧
      (nextOf (exec (.jalib .r7 63) (lastSlot 0x000000400000003C))).map (fun t => decide (t.ib ≠ 0x2000)) = some true ∧
      (nextOf (exec (.jtlib .r3 63) (lastSlot 0x000000000000003C))).map (fun t => decide (t.ib ≠ 0x2000)) = some true := by decide
theorem witness_OnlyDestinationsWritten :
    regAfter .r1 (exec (.movi .r1 1) (fix 0 0 0)) = some 1 ∧ readReg (fix 0 0 0) .r1 = 0 ∧
      (nextOf (exec (.store .r2 .r1 0) (put64 (fixSmall 0x3000 1 0) 0x3000 0))).map (fun t => readByte t 0x3000) = some 1 ∧
      readByte (put64 (fixSmall 0x3000 1 0) 0x3000 0) 0x3000 = 0 := by decide
theorem witness_StepKeepsTrapStateOrEntersTrap :
    step (State.reset.withFetchWord 16 0) = .next (takeTrap (State.reset.withFetchWord 16 0) .breakpoint) := by rfl
/-- A next state that is no trap entry: the run has not ended in it. -/
theorem witness_OtherInstructionsAdvance :
    exec (.movi .r1 1) (fix 0 0 0) = .next (advance (writeReg (fix 0 0 0) .r1 1)) ∧
      ∀ c, ¬ EntersTrap c (fix 0 0 0) (advance (writeReg (fix 0 0 0) .r1 1)) :=
  ⟨by rfl, fun _ h => absurd h.2.1 (by decide)⟩
/-- A decoded instruction of each kind that is specified, and one state under each condition. -/
theorem witness_StepStopsExactlyWhenUnspecified :
    (takeTrap State.reset .breakpoint).trapped = true ∧
      fetch (lastPacket 0x4440) = .ok 0x4440 ∧ decodePacket 0x4440 = .ok (.load .r2 .r1 0) ∧
      fetch (lastPacket 0xB660) = .ok 0xB660 ∧ decodePacket 0xB660 = .ok (.add .r5 .r5 .r4) :=
  ⟨rfl, by rfl, by rfl, by rfl, by rfl⟩
theorem witness_UnspecifiedWhen :
    UnspecifiedWhen (straddle 0) (.movib .r1 63) .accessOutsideMap ∧
      UnspecifiedWhen (fixSmall 0x3008 0 0) (.load .r3 .r1 7) .accessOutsideMap ∧
      UnspecifiedWhen (fixSmall 0x3008 0 0) (.store .r3 .r1 7) .accessOutsideMap ∧
      UnspecifiedWhen (fixSmall 0x10C0 0 0) (.store .r3 .r1 7) .storeToReadOnly ∧
      UnspecifiedWhen (fixSmall 0x3001 0 0) (.load .r3 .r1 0) .misalignedData ∧
      UnspecifiedWhen (lastSlot 0x0000004000000001) (.jalib .r7 63) .misalignedTarget ∧
      ∀ f, ¬ UnspecifiedWhen (fixSmall 0 0 0) (.add .r5 .r5 .r4) f := by
  refine ⟨.inl ⟨8, 63 * 8, rfl, by decide⟩, .inr (.inl ⟨_, .inl ⟨_, _, _, rfl, rfl⟩, by decide, by decide⟩),
    .inr (.inr ⟨_, .inl ⟨_, _, _, rfl, rfl⟩, by decide, by decide⟩), ⟨_, .inl ⟨_, _, _, rfl, rfl⟩, by decide, by decide, by decide⟩,
    ⟨_, .inl (.inl ⟨_, _, _, rfl, rfl⟩), by decide⟩,
    ⟨_, _, ⟨_, _, 0x0000004000000001, by decide, by decide, .inl ⟨rfl, rfl, rfl⟩⟩, by decide⟩, ?_⟩
  intro f
  cases f <;> simp [UnspecifiedWhen, ConstantUnreadable, constantRead, ReadsDataAt, WritesDataAt, TransfersTo]

/-- Two operands whose signed and unsigned orders differ. -/
theorem witness_ComparisonAliases :
    (0xFFFFFFFFFFFFFFFF : Word) = readReg (fix 0xFFFFFFFFFFFFFFFF 1 0) .r1 ∧ (1 : Word) = readReg (fix 0xFFFFFFFFFFFFFFFF 1 0) .r2 := by
  decide
/-- break and illegal with uimm9 at both ends of its range. -/
theorem witness_BreakAndIllegalTakeTraps :
    0 < 512 ∧ 511 < 512 ∧ (nextOf (exec (.brk 0) (fix 0 0 0))).map (fun t => t.tcause) = some .breakpoint ∧
      (nextOf (exec (.illegal 511) (fix 0 0 0))).map (fun t => t.tcause) = some .illegalInstruction := by decide

/-- The call of program P3: text label 0x1040, const label 0x2040. -/
theorem witness_CallRelocationReachesLabels :
    (0x1040 : Addr).toNat % 2 = 0 ∧ (0x2040 : Addr).toNat % 64 = 0 ∧ Fits32 (0x1040 - (caller.pc + 2)) ∧ Fits32 (0x2040 - caller.ib) ∧
      ConstReadableAt caller 8 (caller.ib + BitVec.ofNat 64 (0 * 8)) ∧
      Holds64 caller (caller.ib + BitVec.ofNat 64 (0 * 8)) (callReloc 0x1040 0x2040 caller.pc caller.ib) := by decide

/-- `li` of 31 needs no constant, of 32 and of −2^63 a 64-bit one; `la` of 0x3012 absolutely and from a leapc at 0x1010 (R90's
example, constant 0x2002). -/
theorem witness_LiAndLaReachTheirValues :
    allocated (.li .r2 31 63) 0x1000 0x2000 = none ∧ allocated (.li .r2 32 63) 0x1000 0x2000 = some (.quad 63 32) ∧
      allocated (.li .r2 (-2 ^ 63) 63) 0x1000 0x2000 = some (.quad 63 0x8000000000000000) ∧
      EntryPresent (lastSlot 0x8000000000000000) (some (.quad 63 0x8000000000000000)) ∧
      allocated (.laAbsolute .r5 0x3012 63) 0x1000 0x2000 = some (.quad 63 0x3012) ∧
      EntryPresent (lastSlot 0x3012) (some (.quad 63 0x3012)) ∧
      allocated (.laPcRelative .r5 0x3012 63) 0x1010 0x2100 = some (.long 63 0x2002) ∧ Fits32 (0x3012 - 0x1010) ∧
      EntryPresent { lastSlot 0x0000200200000000 with pc := 0x1010, ib := 0x2100 } (some (.long 63 0x2002)) ∧
      regAfter .r5 (exec (expand (.laPcRelative .r5 0x3012 63))
        { lastSlot 0x0000200200000000 with pc := 0x1010, ib := 0x2100 }) = some 0x3012 :=
  ⟨by decide, by decide, by decide, ⟨by decide, by decide⟩, by decide, ⟨by decide, by decide⟩, by decide, by decide,
    ⟨by decide, by decide⟩, by decide⟩
/-- The constants of program P3's call at 0x1002 and return at 0x1044. -/
theorem test_allocated_call_ret :
    allocated (.call 0x1040 0x2040 0) 0x1002 0x2000 = some (.quad 0 0x000000400000003C) ∧
      allocated (.ret 0x1040 0x2040 0) 0x1044 0x2040 = some (.quad 0 0x00000000FFFFFFFC) := by decide

end Sys2Proof.Tests
end

section
/-! PROOFS. What an instruction can do, said once: every way `exec` can answer a next state, and what follows for ib (R22). -/

namespace Sys2Proof.Machine

/-- The ways an instruction can complete: the update it makes of the state, tied to the instructions that can make it (trap
entry apart, which only its cause describes). -/
inductive Completes (s : State) : Instr → State → Prop where
  /-- An untaken `b` or conditional move: nothing but pc changes (R72, R106). -/
  | advance {i : Instr} : ((∃ z, i = .b z) ∨ ∃ rc rb, i = .compareMov rc rb) → Completes s i (advance s)
  /-- A register result, without a data access. -/
  | register {i : Instr} {rc : Reg} (v : Word) : destination i = some rc → Completes s i (advance (writeReg s rc v))
  /-- A register result read from data memory, whose access a device may see (R36, R42). -/
  | load {i : Instr} {rc : Reg} (ea : Addr) (v : Word) : destination i = some rc →
      Completes s i (advance (writeReg (recordAccess s ea (.read ea)) rc v))
  /-- A data write to eight writable bytes (R37). -/
  | store {i : Instr} (ea : Addr) (v : Word) : ((∃ rc u, i = .storepc rc u) ∨ ∃ rc rb u, i = .store rc rb u) →
      ea.toNat % 8 = 0 → DataWritableAt s ea →
      Completes s i (advance (recordAccess (storeBytes 8 s ea v) ea (.write ea v)))
  /-- A comparison (R99). -/
  | flag {i : Instr} (b : Bool) :
      (∃ rc rb : Reg, i = .compareLt rc rb ∨ i = .compareGe rc rb ∨ i = .compareEq rc rb ∨ i = .compareNe rc rb ∨
        i = .compareLtu rc rb ∨ i = .compareGeu rc rb) → Completes s i (advance (writeFlag s b))
  /-- A jump: `j`, or `b` taken (R71, R72). -/
  | jump {i : Instr} (z : Int) : i = .j z ∨ i = .b z → Completes s i (setPc s (branchTarget s z))
  /-- `ibj` moves ib by whole blocks (R73). -/
  | block (z : Int) : Completes s (.ibj z) (advance (setIb s (blockTarget s z)))
  /-- `jalib` links in rc and moves (pc, ib) to an aligned pair (R74). -/
  | call (rc : Reg) (u : Nat) (link : Word) (npc nib : Addr) : npc.toNat % 2 = 0 → nib.toNat % 64 = 0 →
      Completes s (.jalib rc u) (setPc (setIb (writeReg s rc link) nib) npc)
  /-- `jtlib` moves (pc, ib) to an aligned pair (R75). -/
  | ret (rc : Reg) (u : Nat) (npc nib : Addr) : npc.toNat % 2 = 0 → nib.toNat % 64 = 0 →
      Completes s (.jtlib rc u) (setPc (setIb s nib) npc)
  /-- Trap entry (R164). -/
  | trap {i : Instr} (c : Cause) : Completes s i (takeTrap s c)

/-! ## From each shared ending to the way it completes -/

theorem completes_of_setRegNext {s t : State} {i : Instr} {rc : Reg} {v : Word} (hd : destination i = some rc)
    (h : setRegNext s rc v = .next t) : Completes s i t := by
  cases h
  exact .register v hd

theorem completes_of_setFlagNext {s t : State} {i : Instr} {b : Bool}
    (hi : ∃ rc rb : Reg, i = .compareLt rc rb ∨ i = .compareGe rc rb ∨ i = .compareEq rc rb ∨ i = .compareNe rc rb ∨
      i = .compareLtu rc rb ∨ i = .compareGeu rc rb)
    (h : setFlagNext s b = .next t) : Completes s i t := by
  cases h
  exact .flag b hi

theorem completes_of_takeTrap {s t : State} {i : Instr} {c : Cause} (h : (.next (takeTrap s c) : Result) = .next t) :
    Completes s i t := by
  cases h
  exact .trap c

theorem completes_of_loadNext {s t : State} {i : Instr} {rc : Reg} {ea : Addr} (hd : destination i = some rc)
    (h : loadNext s rc ea = .next t) : Completes s i t := by
  obtain ⟨_, _, rfl⟩ := loadNext_next h
  exact .load ea _ hd

theorem completes_of_storeNext {s t : State} {i : Instr} {ea : Addr} {v : Word}
    (hi : (∃ rc u, i = .storepc rc u) ∨ ∃ rc rb u, i = .store rc rb u)
    (h : storeNext s ea v = .next t) : Completes s i t := by
  obtain ⟨hea, hw, rfl⟩ := storeNext_next h
  exact .store ea v hi hea hw

/-- A transfer that answers a next state moved (pc, ib) to an aligned pair. -/
theorem transfer_next {s t : State} {npc nib : Addr} (h : transfer s npc nib = .next t) :
    npc.toNat % 2 = 0 ∧ nib.toNat % 64 = 0 ∧ t = setPc (setIb s nib) npc := by
  rcases transfer_cases s npc nib with ⟨hpc, hib, e⟩ | ⟨_, e⟩ <;> rw [e] at h
  · cases h; exact ⟨hpc, hib, rfl⟩
  · cases h

/-- Whenever `exec` answers a next state, the instruction completed in one of the listed ways. -/
theorem completes_of_exec {i : Instr} {s t : State} (h : exec i s = .next t) : Completes s i t := by
  cases i with
  | brk _ | illegal _ | compareUnassigned _ _ => exact completes_of_takeTrap h
  | j z => cases h; exact .jump z (.inl rfl)
  | b z =>
    simp only [exec, execB] at h
    split at h <;> cases h
    · exact .jump z (.inr rfl)
    · exact .advance (.inl ⟨z, rfl⟩)
  | ibj z => cases h; exact .block z
  | jalib rc u =>
    simp only [exec, execJalib] at h
    split at h
    · cases h
    · obtain ⟨hpc, hib, rfl⟩ := transfer_next h
      exact .call rc u _ _ _ hpc hib
  | jtlib rc u =>
    simp only [exec, execJtlib] at h
    split at h
    · cases h
    · obtain ⟨hpc, hib, rfl⟩ := transfer_next h
      exact .ret rc u _ _ hpc hib
  | movib _ _ | addib _ _ | leapc _ _ =>
    simp only [exec, execMovib, execAddib, execLeapc] at h
    split at h
    · cases h
    · exact completes_of_setRegNext rfl h
  | loadpc _ _ =>
    simp only [exec, execLoadpc] at h
    split at h
    · cases h
    · exact completes_of_loadNext rfl h
  | storepc rc u =>
    simp only [exec, execStorepc] at h
    split at h
    · cases h
    · exact completes_of_storeNext (.inl ⟨rc, u, rfl⟩) h
  | load _ _ _ => exact completes_of_loadNext rfl h
  | store rc rb u => exact completes_of_storeNext (.inr ⟨rc, rb, u, rfl⟩) h
  | compareLt rc rb | compareGe rc rb | compareEq rc rb | compareNe rc rb | compareLtu rc rb | compareGeu rc rb =>
    exact completes_of_setFlagNext ⟨rc, rb, by simp⟩ h
  | compareMov rc rb =>
    simp only [exec, execCompareMov] at h
    split at h
    · exact completes_of_setRegNext rfl h
    · cases h; exact .advance (.inr ⟨rc, rb, rfl⟩)
  | div _ _ _ =>
    simp only [exec, execDiv] at h
    split at h
    · exact completes_of_takeTrap h
    · exact completes_of_setRegNext rfl h
  | movi _ _ | addi _ _ | srli _ _ | srai _ _ | slli _ _ | logicMov _ _ | logicNot _ _ | logicNeg _ _ | logicBswap _ _
  | logicCtz _ _ | logicClz _ _ | logicCtpop _ _ | logicSext _ _ | pin _ _ _ | and _ _ _ | or _ _ _ | xor _ _ _ | add _ _ _
  | srl _ _ _ | sra _ _ _ | sll _ _ _ | sub _ _ _ | mul _ _ _ =>
    exact completes_of_setRegNext rfl h

/-- Settles O52: of the ways an instruction can complete, only a block move, a call and a return write ib. -/
theorem ibWrittenOnlyByBlockTransfers : Obligations.IbWrittenOnlyByBlockTransfers := by
  intro i s t h hib
  cases completes_of_exec h with
  | block z => exact .inl ⟨z, rfl⟩
  | call rc u => exact .inr (.inl ⟨rc, u, rfl⟩)
  | ret rc u => exact .inr (.inr ⟨rc, u, rfl⟩)
  | advance | register | load | store | flag | jump | trap => exact absurd (by simp) hib

end Sys2Proof.Machine
end

section
/-! PROOFS. The packets of form R1I6 (R54): what each field of one holds, and when decoding one gives back the instruction it
encodes (R64, R65). -/

namespace Sys2Proof

/-- A register field names the register whose number it holds (R14). -/
@[simp] theorem regOfBits_regBits (r : Reg) : regOfBits (regBits r) = r := by cases r <;> rfl

section Fields
open BitVec

variable (rc : Reg) (v : BitVec 6) (op : BitVec 5)

@[simp] theorem fieldSz_packR1I6 : fieldSz (packR1I6 rc v op) = 0b00 := extractLsb'_append_eq_right

@[simp] theorem fieldOpcode_packR1I6 : fieldOpcode (packR1I6 rc v op) = op :=
  (extractLsb'_append_eq_of_le (by decide)).trans extractLsb'_append_eq_right

@[simp] theorem fieldImm6_packR1I6 : fieldImm6 (packR1I6 rc v op) = v :=
  (extractLsb'_append_eq_of_le (by decide)).trans <|
    (extractLsb'_append_eq_of_le (by decide)).trans extractLsb'_append_eq_right

@[simp] theorem fieldRc_packR1I6 : fieldRc (packR1I6 rc v op) = regBits rc :=
  (extractLsb'_append_eq_of_le (by decide)).trans <|
    (extractLsb'_append_eq_of_le (by decide)).trans extractLsb'_append_eq_left

end Fields

/-- A packet whose size field is 00 decodes by its opcode (R53, R64). -/
theorem decodePacket_of_sz_zero {w : Packet} (h : fieldSz w = 0b00) : decodePacket w = .ok (decodeShort w) := by
  simp [decodePacket, longLength, h]

theorem decodePacket_packR1I6 (rc : Reg) (v : BitVec 6) (op : BitVec 5) :
    decodePacket (packR1I6 rc v op) = .ok (decodeShort (packR1I6 rc v op)) :=
  decodePacket_of_sz_zero (fieldSz_packR1I6 rc v op)

/-- Sign extension of a 6-bit field gives back every immediate in the field's range (R56). -/
theorem toInt_ofInt_simm6 {z : Int} (hlo : -32 ≤ z) (hhi : z ≤ 31) : (BitVec.ofInt 6 z).toInt = z :=
  BitVec.toInt_ofInt_eq_self (by decide) (by omega) (by omega)

namespace Machine

/-- An immediate of a 6-bit field keeps its value when it is extended to 64 bits (R56). -/
theorem toInt_simm {z : Int} (hlo : -32 ≤ z) (hhi : z ≤ 31) : (simm z).toInt = z :=
  BitVec.toInt_ofInt_eq_self (by decide) (by omega) (by omega)

theorem encodedAs_movi (rc : Reg) {z : Int} (hlo : -32 ≤ z) (hhi : z ≤ 31) :
    EncodedAs (packR1I6 rc (BitVec.ofInt 6 z) 0b00111) (.movi rc z) := by
  refine ⟨?_, rfl⟩
  rw [decodePacket_packR1I6]
  simp [decodeShort, toInt_ofInt_simm6 hlo hhi]

theorem exec_movi (rc : Reg) (z : Int) (s : State) :
    exec (.movi rc z) s = .next (advance (writeReg s rc (simm z))) := by rfl

/-- Settles O21: the packet decodes to `movi` with the immediate it holds, whose extension to 64 bits `movi` writes to rc. -/
theorem moviLoadsImmediate : Obligations.MoviLoadsImmediate := by
  intro rc z s hlo hhi
  refine ⟨encodedAs_movi rc hlo hhi, _, exec_movi rc z s, ?_, onlyRegWritten_advance_writeReg s rc (simm z)⟩
  rw [readReg_advance_writeReg]
  exact toInt_simm hlo hhi

end Machine

end Sys2Proof
end

section
/-! PROOFS. The packets of form R2I3 (R54): what each field of one holds, and what one with the opcode of `compare.i64` or
`logic.i64` decodes to (R61, R64, R65). -/

namespace Sys2Proof

section Fields
open BitVec

variable (rc rb : Reg) (v : BitVec 3) (op : BitVec 5)

@[simp] theorem fieldSz_packR2I3 : fieldSz (packR2I3 rc rb v op) = 0b00 := extractLsb'_append_eq_right

@[simp] theorem fieldOpcode_packR2I3 : fieldOpcode (packR2I3 rc rb v op) = op :=
  (extractLsb'_append_eq_of_le (by decide)).trans extractLsb'_append_eq_right

@[simp] theorem fieldRa_packR2I3 : fieldRa (packR2I3 rc rb v op) = v :=
  (extractLsb'_append_eq_of_le (by decide)).trans <|
    (extractLsb'_append_eq_of_le (by decide)).trans extractLsb'_append_eq_right

@[simp] theorem fieldRb_packR2I3 : fieldRb (packR2I3 rc rb v op) = regBits rb :=
  (extractLsb'_append_eq_of_le (by decide)).trans <|
    (extractLsb'_append_eq_of_le (by decide)).trans <|
      (extractLsb'_append_eq_of_le (by decide)).trans extractLsb'_append_eq_right

@[simp] theorem fieldRc_packR2I3 : fieldRc (packR2I3 rc rb v op) = regBits rc :=
  (extractLsb'_append_eq_of_le (by decide)).trans <|
    (extractLsb'_append_eq_of_le (by decide)).trans <|
      (extractLsb'_append_eq_of_le (by decide)).trans extractLsb'_append_eq_left

end Fields

theorem decodePacket_packR2I3 (rc rb : Reg) (v : BitVec 3) (op : BitVec 5) :
    decodePacket (packR2I3 rc rb v op) = .ok (decodeShort (packR2I3 rc rb v op)) :=
  decodePacket_of_sz_zero (fieldSz_packR2I3 rc rb v op)

theorem decodePacket_compare (rc rb : Reg) (fun3 : BitVec 3) :
    decodePacket (packR2I3 rc rb fun3 0b10010) = .ok (decodeCompare rc rb fun3) := by
  rw [decodePacket_packR2I3]
  simp [decodeShort]

theorem decodePacket_logic (rc rb : Reg) (fun3 : BitVec 3) :
    decodePacket (packR2I3 rc rb fun3 0b10011) = .ok (decodeLogic rc rb fun3) := by
  rw [decodePacket_packR2I3]
  simp [decodeShort]

namespace Machine

/-- A sub-function of `compare.i64` has the packet of its fun3, read both ways (R61, R65). -/
theorem encodedAs_compare {rc rb : Reg} {fun3 : BitVec 3} {i : Instr} (hd : decodeCompare rc rb fun3 = i)
    (he : encode i = packR2I3 rc rb fun3 0b10010) : EncodedAs (packR2I3 rc rb fun3 0b10010) i :=
  ⟨hd ▸ decodePacket_compare rc rb fun3, he⟩

/-- A sub-function of `logic.i64` has the packet of its fun3, read both ways (R61, R65). -/
theorem encodedAs_logic {rc rb : Reg} {fun3 : BitVec 3} {i : Instr} (hd : decodeLogic rc rb fun3 = i)
    (he : encode i = packR2I3 rc rb fun3 0b10011) : EncodedAs (packR2I3 rc rb fun3 0b10011) i :=
  ⟨hd ▸ decodePacket_logic rc rb fun3, he⟩

end Machine

end Sys2Proof
end

section
/-! PROOFS. `compare.i64` (spec/43_compare_logic.md R99 to R106): the relation each comparison decides, and the conditional
move. -/

namespace Sys2Proof.Machine

/-! ## The relations (R100 to R105) -/

theorem flagLt_iff (a b : Word) : flagLt a b = true ↔ a.toInt < b.toInt := decide_eq_true_iff

theorem flagGe_iff (a b : Word) : flagGe a b = true ↔ a.toInt ≥ b.toInt := decide_eq_true_iff

theorem flagLtu_iff (a b : Word) : flagLtu a b = true ↔ a.toNat < b.toNat := decide_eq_true_iff

theorem flagGeu_iff (a b : Word) : flagGeu a b = true ↔ a.toNat ≥ b.toNat := decide_eq_true_iff

theorem word_eq_iff_bits (a b : Word) : a = b ↔ ∀ n < 64, a.getLsbD n = b.getLsbD n :=
  ⟨fun h _ _ => h ▸ rfl, BitVec.eq_of_getLsbD_eq⟩

theorem flagEq_iff_bits (a b : Word) : flagEq a b = true ↔ ∀ n < 64, a.getLsbD n = b.getLsbD n :=
  decide_eq_true_iff.trans (word_eq_iff_bits a b)

theorem flagNe_iff_bits (a b : Word) : flagNe a b = true ↔ ∃ n < 64, a.getLsbD n ≠ b.getLsbD n := by
  have differ : a ≠ b ↔ ¬ ∀ n < 64, a.getLsbD n = b.getLsbD n := not_congr (word_eq_iff_bits a b)
  exact decide_eq_true_iff.trans (differ.trans (by simp only [not_forall, exists_prop, ne_eq]))

/-! ## The comparisons (R99) -/

/-- An instruction that ends by writing `b` to flag leaves flag at the truth of what `b` decides, and all else but pc. -/
theorem setsFlag_of_exec {i : Instr} {s : State} {b : Bool} {P : Prop} (h : exec i s = setFlagNext s b)
    (hb : b = true ↔ P) : ∃ t, exec i s = .next t ∧ (t.flag = true ↔ P) ∧ OnlyFlagWritten s t :=
  ⟨advance (writeFlag s b), h, hb, onlyFlagWritten_advance_writeFlag s b⟩

/-- Settles O33: `lt` and `ge` end by writing the signed relation to flag. -/
theorem signedCompares : Obligations.SignedCompares := fun _ _ _ =>
  ⟨⟨encodedAs_compare rfl rfl, setsFlag_of_exec rfl (flagLt_iff _ _)⟩,
    ⟨encodedAs_compare rfl rfl, setsFlag_of_exec rfl (flagGe_iff _ _)⟩⟩

/-- Settles O34: `eq` and `ne` decide the equality of words, which is the equality of all their bits. -/
theorem equalityCompares : Obligations.EqualityCompares := fun _ _ _ =>
  ⟨⟨encodedAs_compare rfl rfl, setsFlag_of_exec rfl (flagEq_iff_bits _ _)⟩,
    ⟨encodedAs_compare rfl rfl, setsFlag_of_exec rfl (flagNe_iff_bits _ _)⟩⟩

/-- Settles O35: `ltu` and `geu` end by writing the unsigned relation to flag. -/
theorem unsignedCompares : Obligations.UnsignedCompares := fun _ _ _ =>
  ⟨⟨encodedAs_compare rfl rfl, setsFlag_of_exec rfl (flagLtu_iff _ _)⟩,
    ⟨encodedAs_compare rfl rfl, setsFlag_of_exec rfl (flagGeu_iff _ _)⟩⟩

/-! ## The conditional move (R106) -/

theorem exec_compareMov_of_flag (rc rb : Reg) {s : State} (h : s.flag = true) :
    exec (.compareMov rc rb) s = .next (advance (writeReg s rc (readReg s rb))) := if_pos h

theorem exec_compareMov_of_not_flag (rc rb : Reg) {s : State} (h : ¬ s.flag = true) :
    exec (.compareMov rc rb) s = .next (advance s) := if_neg h

/-- Advancing alone stays inside the frame of every register result. -/
theorem onlyRegWritten_advance (rc : Reg) (s : State) : OnlyRegWritten rc s (advance s) :=
  ⟨fun _ _ => rfl, rfl, rfl, rfl, ⟨rfl, rfl, rfl⟩, fun _ => rfl, rfl, rfl⟩

/-- Settles O36: with flag = 1 the move writes rc, and with flag = 0 it only advances. -/
theorem conditionalMove : Obligations.ConditionalMove := by
  intro rc rb s
  refine ⟨encodedAs_compare rfl rfl, ?_⟩
  by_cases h : s.flag = true
  · refine ⟨_, exec_compareMov_of_flag rc rb h, ?_, onlyRegWritten_advance_writeReg s rc _⟩
    rw [readReg_advance_writeReg, if_pos h]
  · refine ⟨_, exec_compareMov_of_not_flag rc rb h, ?_, onlyRegWritten_advance rc s⟩
    rw [readReg_advance, if_neg h]

end Sys2Proof.Machine
end

section
/-! PROOFS. `logic.i64` (spec/43_compare_logic.md R109 to R116): the copy, the complement and the population count. -/

namespace Sys2Proof.Machine

/-- An instruction that ends by writing `v` to rc leaves `v` there, and all else but pc (R109). -/
theorem setsReg_of_exec {i : Instr} {s : State} {rc : Reg} {v : Word} (h : exec i s = setRegNext s rc v) :
    ∃ t, exec i s = .next t ∧ readReg t rc = v ∧ OnlyRegWritten rc s t :=
  ⟨advance (writeReg s rc v), h, readReg_advance_writeReg s rc v, onlyRegWritten_advance_writeReg s rc v⟩

theorem exec_logicNot (rc rb : Reg) (s : State) :
    exec (.logicNot rc rb) s = setRegNext s rc (~~~(readReg s rb)) := by rfl

theorem exec_logicCtpop (rc rb : Reg) (s : State) :
    exec (.logicCtpop rc rb) s = setRegNext s rc (uimm (countPopulation (readReg s rb))) := by rfl

/-- Settles O37: both forms end by writing rc, `mov` the value of rb and `not` its complement. -/
theorem moveAndComplement : Obligations.MoveAndComplement := by
  intro rc rb s
  refine ⟨⟨encodedAs_logic rfl rfl, setsReg_of_exec rfl⟩, encodedAs_logic rfl rfl, ?_⟩
  obtain ⟨t, ht, hrc, frame⟩ := setsReg_of_exec (exec_logicNot rc rb s)
  exact ⟨t, ht, fun _ hn => by simp [hrc, hn], frame⟩

/-! ## The population count (R116) -/

/-- Counting along the list of positions gives the size of the set of positions that hold a 1. -/
theorem countPopulation_eq_card (v : Word) :
    countPopulation v = (Finset.univ.filter (fun i : Fin 64 => v.getLsbD i = true)).card := by
  calc countPopulation v
    _ = Nat.count (fun i => v.getLsbD i = true) 64 := by simp [countPopulation, Nat.count]
    _ = ((Finset.range 64).filter (fun i => v.getLsbD i = true)).card := Nat.count_eq_card_filter_range _ _
    _ = ∑ i ∈ Finset.range 64, if v.getLsbD i = true then 1 else 0 := Finset.card_filter _ _
    _ = ∑ i : Fin 64, if v.getLsbD i = true then 1 else 0 :=
      (Fin.sum_univ_eq_sum_range (fun i => if v.getLsbD i = true then 1 else 0) 64).symm
    _ = (Finset.univ.filter (fun i : Fin 64 => v.getLsbD i = true)).card := (Finset.card_filter _ _).symm

theorem countPopulation_le (v : Word) : countPopulation v ≤ 64 :=
  List.countP_le_length.trans_eq List.length_range

/-- A count of bits fits the register it is written to. -/
theorem toNat_uimm_countPopulation (v : Word) : (uimm (countPopulation v)).toNat = countPopulation v :=
  (BitVec.toNat_ofNat _ _).trans (Nat.mod_eq_of_lt ((countPopulation_le v).trans_lt (by decide)))

/-- Settles O40: `ctpop` ends by writing the count to rc, and the count is the size of the set. -/
theorem countPopulationCounts : Obligations.CountPopulationCounts := by
  intro rc rb s
  obtain ⟨t, ht, hrc, frame⟩ := setsReg_of_exec (exec_logicCtpop rc rb s)
  refine ⟨encodedAs_logic rfl rfl, t, ht, ?_, frame⟩
  rw [hrc, toNat_uimm_countPopulation, countPopulation_eq_card]

end Sys2Proof.Machine
end

section
/-! PROOFS. The packets of form R3 (R54): what each field of one holds. Such a packet is one of form R2I3 whose third field
holds the number of ra. -/

namespace Sys2Proof

section Fields

variable (rc rb ra : Reg) (op : BitVec 5)

@[simp] theorem fieldSz_packR3 : fieldSz (packR3 rc rb ra op) = 0b00 := fieldSz_packR2I3 rc rb (regBits ra) op

@[simp] theorem fieldOpcode_packR3 : fieldOpcode (packR3 rc rb ra op) = op := fieldOpcode_packR2I3 rc rb (regBits ra) op

@[simp] theorem fieldRa_packR3 : fieldRa (packR3 rc rb ra op) = regBits ra := fieldRa_packR2I3 rc rb (regBits ra) op

@[simp] theorem fieldRb_packR3 : fieldRb (packR3 rc rb ra op) = regBits rb := fieldRb_packR2I3 rc rb (regBits ra) op

@[simp] theorem fieldRc_packR3 : fieldRc (packR3 rc rb ra op) = regBits rc := fieldRc_packR2I3 rc rb (regBits ra) op

end Fields

namespace Machine

/-- What the opcode of an R3 packet selects has that packet, read both ways (R60, R64, R65). -/
theorem encodedAs_packR3 {rc rb ra : Reg} {op : BitVec 5} {i : Instr} (hd : decodeShort (packR3 rc rb ra op) = i)
    (he : encode i = packR3 rc rb ra op) : EncodedAs (packR3 rc rb ra op) i :=
  ⟨hd ▸ decodePacket_of_sz_zero (fieldSz_packR3 rc rb ra op), he⟩

end Machine

end Sys2Proof
end

section
/-! PROOFS. The three-register instructions (spec/44_arith.md R121 to R123): the bitwise and, or and exclusive or. -/

namespace Sys2Proof.Machine

section Bitwise

variable (rc rb ra : Reg) (s : State)

theorem encodedAs_and : EncodedAs (packR3 rc rb ra 0b10101) (.and rc rb ra) :=
  encodedAs_packR3 (by simp [decodeShort]) rfl

theorem encodedAs_or : EncodedAs (packR3 rc rb ra 0b10110) (.or rc rb ra) :=
  encodedAs_packR3 (by simp [decodeShort]) rfl

theorem encodedAs_xor : EncodedAs (packR3 rc rb ra 0b10111) (.xor rc rb ra) :=
  encodedAs_packR3 (by simp [decodeShort]) rfl

theorem exec_and : exec (.and rc rb ra) s = setRegNext s rc (readReg s rb &&& readReg s ra) := by rfl

theorem exec_or : exec (.or rc rb ra) s = setRegNext s rc (readReg s rb ||| readReg s ra) := by rfl

theorem exec_xor : exec (.xor rc rb ra) s = setRegNext s rc (readReg s rb ^^^ readReg s ra) := by rfl

end Bitwise

/-- An instruction that ends by writing to rc a word whose bits are `bit` leaves those bits there, and all else but pc. The
bits are those of the state before the write, so rc may be one of the operands. -/
theorem setsBits_of_exec {i : Instr} {s : State} {rc : Reg} {v : Word} {bit : Nat → Bool}
    (h : exec i s = setRegNext s rc v) (hv : ∀ n, v.getLsbD n = bit n) :
    ∃ t, exec i s = .next t ∧ (∀ n < 64, (readReg t rc).getLsbD n = bit n) ∧ OnlyRegWritten rc s t := by
  obtain ⟨t, ht, hrc, frame⟩ := setsReg_of_exec h
  exact ⟨t, ht, fun n _ => hrc ▸ hv n, frame⟩

/-- Settles O43: each of the three ends by writing rc a word made bit by bit from those of rb and ra. -/
theorem bitwiseOperations : Obligations.BitwiseOperations := by
  intro rc rb ra s
  refine ⟨⟨encodedAs_and rc rb ra, ?_⟩, ⟨encodedAs_or rc rb ra, ?_⟩, ⟨encodedAs_xor rc rb ra, ?_⟩⟩
  · exact setsBits_of_exec (exec_and rc rb ra s) fun _ => BitVec.getLsbD_and
  · exact setsBits_of_exec (exec_or rc rb ra s) fun _ => BitVec.getLsbD_or
  · exact setsBits_of_exec (exec_xor rc rb ra s) fun _ => BitVec.getLsbD_xor

end Sys2Proof.Machine
end

section
/-! PROOFS. The assembler's aliases (spec/45_assembler_abi.md R147): `nop`, the or of r0 with itself into r0. -/

namespace Sys2Proof.Machine

theorem exec_or_self (rc rb : Reg) (s : State) : exec (.or rc rb rb) s = setRegNext s rc (readReg s rb) :=
  (exec_or rc rb rb s).trans (congrArg (setRegNext s rc) BitVec.or_self)

/-- A register result that is the value its register already had changes no register. -/
theorem OnlyRegWritten.sameRegs {rc : Reg} {s t : State} (h : OnlyRegWritten rc s t)
    (hrc : readReg t rc = readReg s rc) : SameRegs s t := by
  obtain ⟨others, -⟩ := h
  intro r
  by_cases hr : r = rc
  · rw [hr, hrc]
  · exact others r hr

/-- Settles O58: `nop` expands to the or of r0 with itself into r0, which writes r0 its own value. -/
theorem nopOnlyAdvances : Obligations.NopOnlyAdvances := by
  refine ⟨by decide, fun s => ?_⟩
  obtain ⟨t, ht, hr0, frame⟩ := setsReg_of_exec (exec_or_self .r0 .r0 s)
  have regs : SameRegs s t := frame.sameRegs hr0
  obtain ⟨-, advanced⟩ := frame
  exact ⟨t, ht, regs, advanced⟩

end Sys2Proof.Machine
end

section
/-! PROOFS. The packets of form I9 (R54); decoding and encoding as inverses of each other (R62 (c), R64, R65), and the size
field (R53). -/

namespace Sys2Proof

section Fields
open BitVec

variable (v : BitVec 9) (op : BitVec 5)

@[simp] theorem fieldSz_packI9 : fieldSz (packI9 v op) = 0b00 := extractLsb'_append_eq_right

@[simp] theorem fieldOpcode_packI9 : fieldOpcode (packI9 v op) = op :=
  (extractLsb'_append_eq_of_le (by decide)).trans extractLsb'_append_eq_right

@[simp] theorem fieldImm9_packI9 : fieldImm9 (packI9 v op) = v :=
  (extractLsb'_append_eq_of_le (by decide)).trans extractLsb'_append_eq_left

end Fields

theorem decodePacket_packI9 (v : BitVec 9) (op : BitVec 5) :
    decodePacket (packI9 v op) = .ok (decodeShort (packI9 v op)) :=
  decodePacket_of_sz_zero (fieldSz_packI9 v op)

theorem decodePacket_packR3 (rc rb ra : Reg) (op : BitVec 5) :
    decodePacket (packR3 rc rb ra op) = .ok (decodeShort (packR3 rc rb ra op)) :=
  decodePacket_of_sz_zero (fieldSz_packR3 rc rb ra op)

/-! ## Immediates through their fields (R56) -/

theorem toInt_ofInt_of_fitsSimm9 {z : Int} (h : fitsSimm9 z = true) : (BitVec.ofInt 9 z).toInt = z := by
  simp only [fitsSimm9, Bool.and_eq_true, decide_eq_true_eq] at h
  exact BitVec.toInt_ofInt_eq_self (by decide) (by omega) (by omega)

theorem toInt_ofInt_of_fitsSimm6 {z : Int} (h : fitsSimm6 z = true) : (BitVec.ofInt 6 z).toInt = z := by
  simp only [fitsSimm6, Bool.and_eq_true, decide_eq_true_eq] at h
  exact toInt_ofInt_simm6 h.1 h.2

theorem mod_of_fitsUimm9 {n : Nat} (h : fitsUimm9 n = true) : n % 512 = n := Nat.mod_eq_of_lt (of_decide_eq_true h)

theorem mod_of_fitsUimm6 {n : Nat} (h : fitsUimm6 n = true) : n % 64 = n := Nat.mod_eq_of_lt (of_decide_eq_true h)

theorem mod_of_fitsUimm3 {n : Nat} (h : fitsUimm3 n = true) : n % 8 = n := Nat.mod_eq_of_lt (of_decide_eq_true h)

/-- Settles O1: each form's fields come back from its packet, and an immediate that fits its field comes back from the field. -/
theorem decodeOfEncode : Obligations.DecodeOfEncode := by
  intro i h
  cases i with
  | brk _ | illegal _ =>
    rw [encode, decodePacket_packI9]
    simp [decodeShort, mod_of_fitsUimm9 h]
  | j _ | b _ | ibj _ =>
    rw [encode, decodePacket_packI9]
    simp [decodeShort, toInt_ofInt_of_fitsSimm9 h]
  | movi _ _ | addi _ _ =>
    rw [encode, decodePacket_packR1I6]
    simp [decodeShort, toInt_ofInt_of_fitsSimm6 h]
  | jalib _ _ | jtlib _ _ | movib _ _ | srli _ _ | srai _ _ | slli _ _ | addib _ _ | leapc _ _ | loadpc _ _ | storepc _ _ =>
    rw [encode, decodePacket_packR1I6]
    simp [decodeShort, mod_of_fitsUimm6 h]
  | load _ _ _ | store _ _ _ =>
    rw [encode, decodePacket_packR2I3]
    simp [decodeShort, mod_of_fitsUimm3 h]
  | compareLt rc rb | compareGe rc rb | compareEq rc rb | compareNe rc rb | compareLtu rc rb | compareGeu rc rb
  | compareMov rc rb | compareUnassigned rc rb => exact decodePacket_compare rc rb _
  | logicMov rc rb | logicNot rc rb | logicNeg rc rb | logicBswap rc rb | logicCtz rc rb | logicClz rc rb | logicCtpop rc rb
  | logicSext rc rb => exact decodePacket_logic rc rb _
  | pin _ _ _ | and _ _ _ | or _ _ _ | xor _ _ _ | add _ _ _ | srl _ _ _ | sra _ _ _ | sll _ _ _ | sub _ _ _ | mul _ _ _
  | div _ _ _ =>
    rw [encode, decodePacket_packR3]
    simp [decodeShort]

/-- The packet of a well-formed instruction, read both ways. -/
theorem Machine.encodedAs_of_wellFormed {i : Instr} (h : wellFormed i = true) : Machine.EncodedAs (encode i) i :=
  ⟨decodeOfEncode i h, rfl⟩

/-! ## Packets from their fields -/

@[simp] theorem regBits_regOfBits (f : BitVec 3) : regBits (regOfBits f) = f := by revert f; decide

section Packs

variable {w : Packet} (hsz : fieldSz w = 0b00)
include hsz

/-- The fourteen bits above a size field of 00 make up the packet with it (R51). -/
theorem append_sz : w.extractLsb' 2 14 ++ 0b00#2 = w := by
  rw [show (0b00#2) = fieldSz w from hsz.symm]
  exact (BitVec.extractLsb'_append_extractLsb'_eq_extractLsb' rfl).trans BitVec.extractLsb'_eq_self

theorem packI9_fields {n : Nat} (hop : (fieldOpcode w).toNat = n) : packI9 (fieldImm9 w) (BitVec.ofNat 5 n) = w := by
  have upper : fieldImm9 w ++ fieldOpcode w = w.extractLsb' 2 14 :=
    BitVec.extractLsb'_append_extractLsb'_eq_extractLsb' rfl
  rw [packI9, ← hop, BitVec.ofNat_toNat, BitVec.setWidth_eq, upper, append_sz hsz]

theorem packR1I6_fields {n : Nat} (hop : (fieldOpcode w).toNat = n) :
    packR1I6 (regOfBits (fieldRc w)) (fieldImm6 w) (BitVec.ofNat 5 n) = w := by
  have imm9 : fieldRc w ++ fieldImm6 w = fieldImm9 w := BitVec.extractLsb'_append_extractLsb'_eq_extractLsb' rfl
  rw [packR1I6, regBits_regOfBits, imm9]
  exact packI9_fields hsz hop

theorem packR2I3_fields {n : Nat} (hop : (fieldOpcode w).toNat = n) :
    packR2I3 (regOfBits (fieldRc w)) (regOfBits (fieldRb w)) (fieldRa w) (BitVec.ofNat 5 n) = w := by
  have imm6 : fieldRc w ++ fieldRb w = w.extractLsb' 10 6 := BitVec.extractLsb'_append_extractLsb'_eq_extractLsb' rfl
  have imm9 : w.extractLsb' 10 6 ++ fieldRa w = fieldImm9 w := BitVec.extractLsb'_append_extractLsb'_eq_extractLsb' rfl
  rw [packR2I3, regBits_regOfBits, regBits_regOfBits, imm6, imm9]
  exact packI9_fields hsz hop

theorem packR3_fields {n : Nat} (hop : (fieldOpcode w).toNat = n) :
    packR3 (regOfBits (fieldRc w)) (regOfBits (fieldRb w)) (regOfBits (fieldRa w)) (BitVec.ofNat 5 n) = w := by
  rw [packR3, regBits_regOfBits (fieldRa w)]
  exact packR2I3_fields hsz hop

end Packs

/-! ## Encoding what was decoded -/

theorem fitsUimm9_toNat (v : BitVec 9) : fitsUimm9 v.toNat = true := decide_eq_true v.isLt

theorem fitsUimm6_toNat (v : BitVec 6) : fitsUimm6 v.toNat = true := decide_eq_true v.isLt

theorem fitsUimm3_toNat (v : BitVec 3) : fitsUimm3 v.toNat = true := decide_eq_true v.isLt

theorem fitsSimm9_toInt (v : BitVec 9) : fitsSimm9 v.toInt = true :=
  Bool.and_eq_true_iff.mpr ⟨decide_eq_true v.le_toInt, decide_eq_true (Int.le_of_lt_add_one v.toInt_lt)⟩

theorem fitsSimm6_toInt (v : BitVec 6) : fitsSimm6 v.toInt = true :=
  Bool.and_eq_true_iff.mpr ⟨decide_eq_true v.le_toInt, decide_eq_true (Int.le_of_lt_add_one v.toInt_lt)⟩

theorem fun3_cases : ∀ f : BitVec 3, f = 0 ∨ f = 1 ∨ f = 2 ∨ f = 3 ∨ f = 4 ∨ f = 5 ∨ f = 6 ∨ f = 7 := by decide

/-- Every value of fun3 selects one of the eight sub-functions of `compare.i64`, which encodes with it (R61). -/
theorem encode_decodeCompare (rc rb : Reg) (fun3 : BitVec 3) :
    wellFormed (decodeCompare rc rb fun3) = true ∧ encode (decodeCompare rc rb fun3) = packR2I3 rc rb fun3 0b10010 := by
  rcases fun3_cases fun3 with rfl | rfl | rfl | rfl | rfl | rfl | rfl | rfl <;> exact ⟨rfl, rfl⟩

/-- Every value of fun3 selects one of the eight sub-functions of `logic.i64`, which encodes with it (R61). -/
theorem encode_decodeLogic (rc rb : Reg) (fun3 : BitVec 3) :
    wellFormed (decodeLogic rc rb fun3) = true ∧ encode (decodeLogic rc rb fun3) = packR2I3 rc rb fun3 0b10011 := by
  rcases fun3_cases fun3 with rfl | rfl | rfl | rfl | rfl | rfl | rfl | rfl <;> exact ⟨rfl, rfl⟩

/-- Each opcode selects an instruction of its form, whose operands are the packet's fields (R60). -/
theorem encode_decodeShort {w : Packet} (hsz : fieldSz w = 0b00) :
    wellFormed (decodeShort w) = true ∧ encode (decodeShort w) = w := by
  unfold decodeShort
  split
  case h_1 hop =>
    exact ⟨fitsUimm9_toNat _, by simpa [encode] using packI9_fields hsz hop⟩
  case h_32 =>
    have lt : (fieldOpcode w).toNat < 32 := (fieldOpcode w).isLt
    have hop : (fieldOpcode w).toNat = 31 := by simp only [imp_false] at *; omega
    exact ⟨fitsUimm9_toNat _, by simpa [encode] using packI9_fields hsz hop⟩
  case h_2 hop | h_3 hop | h_4 hop =>
    exact ⟨fitsSimm9_toInt _, by simpa [encode] using packI9_fields hsz hop⟩
  case h_5 hop | h_6 hop | h_7 hop | h_10 hop | h_11 hop | h_12 hop | h_13 hop | h_14 hop | h_15 hop | h_16 hop =>
    exact ⟨fitsUimm6_toNat _, by simpa [encode] using packR1I6_fields hsz hop⟩
  case h_8 hop | h_9 hop =>
    exact ⟨fitsSimm6_toInt _, by simpa [encode] using packR1I6_fields hsz hop⟩
  case h_17 hop | h_18 hop =>
    exact ⟨fitsUimm3_toNat _, by simpa [encode] using packR2I3_fields hsz hop⟩
  case h_19 hop =>
    obtain ⟨wf, eq⟩ := encode_decodeCompare (regOfBits (fieldRc w)) (regOfBits (fieldRb w)) (fieldRa w)
    exact ⟨wf, eq.trans (packR2I3_fields hsz hop)⟩
  case h_20 hop =>
    obtain ⟨wf, eq⟩ := encode_decodeLogic (regOfBits (fieldRc w)) (regOfBits (fieldRb w)) (fieldRa w)
    exact ⟨wf, eq.trans (packR2I3_fields hsz hop)⟩
  case h_21 hop | h_22 hop | h_23 hop | h_24 hop | h_25 hop | h_26 hop | h_27 hop | h_28 hop | h_29 hop | h_30 hop
  | h_31 hop => exact ⟨rfl, packR3_fields hsz hop⟩

/-! ## The size field (R53) -/

/-- A packet decodes, or announces a longer length, by its size field alone. -/
theorem decodePacket_cases (w : Packet) :
    (fieldSz w = 0b00 ∧ decodePacket w = .ok (decodeShort w)) ∨
      (fieldSz w = 0b01 ∧ decodePacket w = .error (.longForm .bits32)) ∨
      (fieldSz w = 0b10 ∧ decodePacket w = .error (.longForm .bits64)) ∨
      (fieldSz w = 0b11 ∧ decodePacket w = .error (.longForm .bits128)) := by
  have values : ∀ f : BitVec 2, f = 0b00 ∨ f = 0b01 ∨ f = 0b10 ∨ f = 0b11 := by decide
  rcases values (fieldSz w) with h | h | h | h <;> simp [decodePacket, longLength, h]

theorem decodePacket_ok {w : Packet} {i : Instr} (h : decodePacket w = .ok i) : fieldSz w = 0b00 ∧ decodeShort w = i := by
  rcases decodePacket_cases w with ⟨hsz, e⟩ | ⟨_, e⟩ | ⟨_, e⟩ | ⟨_, e⟩ <;> rw [e] at h
  · exact ⟨hsz, Except.ok.inj h⟩
  all_goals cases h

/-- Settles O2: a packet that decodes has the size field 00, and its fields make it up again. -/
theorem encodeOfDecode : Obligations.EncodeOfDecode := by
  intro w i h
  obtain ⟨hsz, rfl⟩ := decodePacket_ok h
  exact encode_decodeShort hsz

/-- Settles O3: each value of the size field gives one outcome of the decoder, and the outcomes differ. -/
theorem sizeFieldTellsLength : Obligations.SizeFieldTellsLength := by
  intro w
  change (fieldSz w = _ ↔ _) ∧ (fieldSz w = _ ↔ _) ∧ (fieldSz w = _ ↔ _) ∧ (fieldSz w = _ ↔ _)
  rcases decodePacket_cases w with ⟨hsz, e⟩ | ⟨hsz, e⟩ | ⟨hsz, e⟩ | ⟨hsz, e⟩ <;> simp [hsz, e]

/-- Settles O4: the packets evaluate to the instructions. -/
theorem examplePacketsDecode : Obligations.ExamplePacketsDecode := by
  refine ⟨?_, ?_, ?_, ?_, ?_, ?_, ?_, ?_⟩ <;> rfl

end Sys2Proof
end

section
/-! PROOFS. The accesses of an instruction, one equation per condition: the constants of the immediate block (R33, R38), the
ends of loads and stores (R36, R37, R166), and the transfers of (pc, ib) (R18, R21). -/

namespace Sys2Proof.Machine

section Accesses

variable {s : State} {u : Nat} {rc : Reg} {ea npc nib : Addr} {v : Word}

/-! ## Constants -/

theorem ib64Const_of_holds (hr : ConstReadableAt s 8 (s.ib + BitVec.ofNat 64 (u * 8)))
    (hv : Holds64 s (s.ib + BitVec.ofNat 64 (u * 8)) v) : ib64Const s u = .ok v := by
  rw [← ib64Addr_eq] at hr hv
  rw [ib64Const_of_readable hr, read64_of_holds hv]

theorem ib64Const_of_unreadable (h : ¬ ConstReadableAt s 8 (s.ib + BitVec.ofNat 64 (u * 8))) :
    ib64Const s u = .error .accessOutsideMap := by
  rw [← ib64Addr_eq] at h
  rcases constRead64_cases s (ib64Addr s u) with ⟨hr, _⟩ | ⟨_, e⟩
  · exact absurd hr h
  · exact e

theorem ib32Const_of_holds {c : BitVec 32} (hr : ConstReadableAt s 4 (s.ib + BitVec.ofNat 64 (u * 4)))
    (hc : Holds32 s (s.ib + BitVec.ofNat 64 (u * 4)) c) : ib32Const s u = .ok (sext32 c) := by
  rw [← ib32Addr_eq] at hr hc
  rw [ib32Const_of_readable hr, read32_of_holds hc]

theorem ib32Const_of_unreadable (h : ¬ ConstReadableAt s 4 (s.ib + BitVec.ofNat 64 (u * 4))) :
    ib32Const s u = .error .accessOutsideMap := by
  rw [← ib32Addr_eq] at h
  rcases constRead32_cases s (ib32Addr s u) with ⟨hr, _⟩ | ⟨_, e⟩
  · exact absurd hr h
  · rw [ib32Const, e]

theorem pcRelAddr_of_holds {c : BitVec 32} (hr : ConstReadableAt s 4 (s.ib + BitVec.ofNat 64 (u * 4)))
    (hc : Holds32 s (s.ib + BitVec.ofNat 64 (u * 4)) c) : pcRelAddr s u = .ok (s.pc + c.signExtend 64) := by
  rw [pcRelAddr, ib32Const_of_holds hr hc, sext32]

theorem pcRelAddr_of_unreadable (h : ¬ ConstReadableAt s 4 (s.ib + BitVec.ofNat 64 (u * 4))) :
    pcRelAddr s u = .error .accessOutsideMap := by
  rw [pcRelAddr, ib32Const_of_unreadable h]

/-! ## Loads and stores -/

theorem loadNext_of_misaligned (ha : ea.toNat % 8 ≠ 0) : loadNext s rc ea = .fault .misalignedData := by
  rcases memRead_cases s ea with ⟨_, e⟩ | ⟨h, _⟩ | ⟨h, _⟩
  · rw [loadNext, e]
  · exact absurd h ha
  · exact absurd h ha

theorem loadNext_of_unreadable (ha : ea.toNat % 8 = 0) (hr : ¬ DataReadableAt s ea) :
    loadNext s rc ea = .fault .accessOutsideMap := by
  rcases memRead_cases s ea with ⟨h, _⟩ | ⟨_, _, e⟩ | ⟨_, h, _⟩
  · exact absurd ha h
  · rw [loadNext, e]
  · exact absurd h hr

theorem loadNext_of_readable (ha : ea.toNat % 8 = 0) (hr : DataReadableAt s ea) :
    loadNext s rc ea = .next (advance (writeReg (recordAccess s ea (.read ea)) rc (dataWord s ea))) := by
  rw [loadNext, memRead_of_readable ha hr]
  rfl

theorem storeNext_of_misaligned (ha : ea.toNat % 8 ≠ 0) : storeNext s ea v = .fault .misalignedData := by
  rcases memWrite_cases s ea v with ⟨_, e⟩ | ⟨h, _⟩ | ⟨h, _⟩ | ⟨h, _⟩
  · rw [storeNext, e]
  all_goals exact absurd h ha

theorem storeNext_of_unmapped (ha : ea.toNat % 8 = 0) (hm : ¬ MappedAt s ea) :
    storeNext s ea v = .fault .accessOutsideMap := by
  rcases memWrite_cases s ea v with ⟨h, _⟩ | ⟨_, _, e⟩ | ⟨_, h, _⟩ | ⟨_, h, _⟩
  · exact absurd ha h
  · rw [storeNext, e]
  · exact absurd h hm
  · exact absurd (fun k hk => mapped_of_writable (h k hk)) hm

theorem storeNext_of_readOnly (ha : ea.toNat % 8 = 0) (hm : MappedAt s ea) (hw : ¬ DataWritableAt s ea) :
    storeNext s ea v = .fault .storeToReadOnly := by
  rcases memWrite_cases s ea v with ⟨h, _⟩ | ⟨_, ⟨k, hk, h⟩, _⟩ | ⟨_, _, _, e⟩ | ⟨_, h, _⟩
  · exact absurd ha h
  · exact absurd (hm k hk) (by simp [h])
  · rw [storeNext, e]
  · exact absurd h hw

theorem storeNext_of_writable (ha : ea.toNat % 8 = 0) (hw : DataWritableAt s ea) :
    storeNext s ea v = .next (advance (recordAccess (storeBytes 8 s ea v) ea (.write ea v))) := by
  rw [storeNext, memWrite_of_writable v ha hw]

/-! ## Transfers -/

theorem transfer_of_aligned (h : npc.toNat % 2 = 0 ∧ nib.toNat % 64 = 0) :
    transfer s npc nib = .next (setPc (setIb s nib) npc) :=
  if_pos ((targetAligned_iff npc nib).mpr h)

theorem transfer_of_misaligned (h : ¬ (npc.toNat % 2 = 0 ∧ nib.toNat % 64 = 0)) :
    transfer s npc nib = .fault .misalignedTarget :=
  if_neg (mt (targetAligned_iff npc nib).mp h)

end Accesses

/-! ## The instructions, through what they test and access -/

section Exec

variable {s : State} {i : Instr} {ea npc nib : Addr} {rc : Reg} {u : Nat}

theorem exec_b_of_flag (z : Int) (h : s.flag = true) : exec (.b z) s = .next (setPc s (branchTarget s z)) := if_pos h

theorem exec_b_of_not_flag (z : Int) (h : ¬ s.flag = true) : exec (.b z) s = .next (advance s) := if_neg h

theorem exec_div_of_zero {rc rb ra : Reg} (h : readReg s ra = 0) :
    exec (.div rc rb ra) s = .next (takeTrap s .divideByZero) := if_pos h

theorem exec_div_of_ne_zero {rc rb ra : Reg} (h : readReg s ra ≠ 0) :
    exec (.div rc rb ra) s = setRegNext s rc (divSigned (readReg s rb) (readReg s ra)) := if_neg h

theorem exec_jalib_of_const {link : Word} (h : ib64Const s u = .ok link) :
    exec (.jalib rc u) s =
      transfer (writeReg s rc link) (s.pc + sext32 (lane0 link) + 2) (s.ib + sext32 (lane1 link)) := by
  simp [exec, execJalib, h]

theorem exec_jtlib_of_const {c : Word} (h : ib64Const s u = .ok c) :
    exec (.jtlib rc u) s =
      transfer s (s.pc + sext32 (lane0 c - lane0 (readReg s rc))) (s.ib + sext32 (lane1 c - lane1 (readReg s rc))) := by
  simp [exec, execJtlib, h]

theorem exec_movib_of_const {c : Word} (h : ib64Const s u = .ok c) : exec (.movib rc u) s = setRegNext s rc c := by
  simp [exec, execMovib, h]

theorem exec_addib_of_const {c : Word} (h : ib32Const s u = .ok c) :
    exec (.addib rc u) s = setRegNext s rc (readReg s rc + c) := by
  simp [exec, execAddib, h]

theorem exec_leapc_of_addr (h : pcRelAddr s u = .ok ea) : exec (.leapc rc u) s = setRegNext s rc ea := by
  simp [exec, execLeapc, h]

theorem exec_loadpc_of_addr (h : pcRelAddr s u = .ok ea) : exec (.loadpc rc u) s = loadNext s rc ea := by
  simp [exec, execLoadpc, h]

theorem exec_storepc_of_addr (h : pcRelAddr s u = .ok ea) : exec (.storepc rc u) s = storeNext s ea (readReg s rc) := by
  simp [exec, execStorepc, h]

theorem exec_load (rc rb : Reg) (u : Nat) (s : State) :
    exec (.load rc rb u) s = loadNext s rc (readReg s rb + BitVec.ofNat 64 (u * 8)) :=
  congrArg (loadNext s rc) (baseAddr_eq s rb u)

theorem exec_store (rc rb : Reg) (u : Nat) (s : State) :
    exec (.store rc rb u) s = storeNext s (readReg s rb + BitVec.ofNat 64 (u * 8)) (readReg s rc) :=
  congrArg (fun ea => storeNext s ea (readReg s rc)) (baseAddr_eq s rb u)

/-- An instruction whose constant is not readable stops, whatever else it does (R38, R166). -/
theorem exec_of_constantUnreadable (h : ConstantUnreadable s i) : exec i s = .fault .accessOutsideMap := by
  obtain ⟨n, off, hread, hbytes⟩ := h
  cases i <;> simp only [constantRead, reduceCtorEq, Option.some.injEq, Prod.mk.injEq] at hread
  case jalib | jtlib | movib =>
    obtain ⟨rfl, rfl⟩ := hread
    simp [exec, execJalib, execJtlib, execMovib, ib64Const_of_unreadable hbytes]
  case addib =>
    obtain ⟨rfl, rfl⟩ := hread
    simp [exec, execAddib, ib32Const_of_unreadable hbytes]
  case leapc | loadpc | storepc =>
    obtain ⟨rfl, rfl⟩ := hread
    simp [exec, execLeapc, execLoadpc, execStorepc, pcRelAddr_of_unreadable hbytes]

theorem exec_of_readsDataAt (h : ReadsDataAt s i ea) : ∃ rc, exec i s = loadNext s rc ea := by
  rcases h with ⟨rc, rb, u, rfl, rfl⟩ | ⟨rc, u, c, rfl, hr, hc, rfl⟩
  · exact ⟨rc, exec_load rc rb u s⟩
  · exact ⟨rc, exec_loadpc_of_addr (pcRelAddr_of_holds hr hc)⟩

theorem exec_of_writesDataAt (h : WritesDataAt s i ea) : ∃ v, exec i s = storeNext s ea v := by
  rcases h with ⟨rc, rb, u, rfl, rfl⟩ | ⟨rc, u, c, rfl, hr, hc, rfl⟩
  · exact ⟨_, exec_store rc rb u s⟩
  · exact ⟨_, exec_storepc_of_addr (pcRelAddr_of_holds hr hc)⟩

theorem exec_of_transfersTo (h : TransfersTo s i npc nib) : ∃ t, exec i s = transfer t npc nib := by
  obtain ⟨rc, u, c, hr, hc, ⟨rfl, rfl, rfl⟩ | ⟨rfl, rfl, rfl⟩⟩ := h
  · exact ⟨_, exec_jalib_of_const (ib64Const_of_holds hr hc)⟩
  · exact ⟨_, exec_jtlib_of_const (ib64Const_of_holds hr hc)⟩

end Exec

end Sys2Proof.Machine
end

section
/-! PROOFS. When an instruction stops and when it goes on: exactly under the conditions of 93_implementation_defined.md
section 1 (R166), and never with a refusal. -/

namespace Sys2Proof.Machine

section Outcomes

variable {s : State} {i : Instr}

/-- Each condition makes the instruction stop with its fault. -/
theorem exec_of_unspecified {f : Fault} (h : UnspecifiedWhen s i f) : exec i s = .fault f := by
  cases f with
  | fetchOutsideMap | trapped _ _ => exact h.elim
  | accessOutsideMap =>
    rcases h with hc | ⟨ea, hread, ha, hr⟩ | ⟨ea, hwrite, ha, hm⟩
    · exact exec_of_constantUnreadable hc
    · obtain ⟨rc, e⟩ := exec_of_readsDataAt hread
      exact e.trans (loadNext_of_unreadable ha hr)
    · obtain ⟨v, e⟩ := exec_of_writesDataAt hwrite
      exact e.trans (storeNext_of_unmapped ha hm)
  | storeToReadOnly =>
    obtain ⟨ea, hwrite, ha, hm, hw⟩ := h
    obtain ⟨v, e⟩ := exec_of_writesDataAt hwrite
    exact e.trans (storeNext_of_readOnly ha hm hw)
  | misalignedData =>
    obtain ⟨ea, hread | hwrite, ha⟩ := h
    · obtain ⟨rc, e⟩ := exec_of_readsDataAt hread
      exact e.trans (loadNext_of_misaligned ha)
    · obtain ⟨v, e⟩ := exec_of_writesDataAt hwrite
      exact e.trans (storeNext_of_misaligned ha)
  | misalignedTarget =>
    obtain ⟨npc, nib, htransfer, ha⟩ := h
    obtain ⟨t, e⟩ := exec_of_transfersTo htransfer
    exact e.trans (transfer_of_misaligned ha)

/-- The instruction goes on, or stops under a fault's condition. -/
def GoesOnOrUnspecified (s : State) (i : Instr) : Prop :=
  (∃ t, exec i s = .next t) ∨ ∃ f, exec i s = .fault f ∧ UnspecifiedWhen s i f

theorem GoesOnOrUnspecified.of_next {t : State} (h : exec i s = .next t) : GoesOnOrUnspecified s i := .inl ⟨t, h⟩

theorem GoesOnOrUnspecified.of_unspecified (f : Fault) (h : UnspecifiedWhen s i f) : GoesOnOrUnspecified s i :=
  .inr ⟨f, exec_of_unspecified h, h⟩

theorem goesOnOrUnspecified_of_readsDataAt {ea : Addr} (h : ReadsDataAt s i ea) : GoesOnOrUnspecified s i := by
  obtain ⟨rc, e⟩ := exec_of_readsDataAt h
  by_cases ha : ea.toNat % 8 = 0
  · by_cases hr : DataReadableAt s ea
    · exact .of_next (e.trans (loadNext_of_readable ha hr))
    · exact .of_unspecified .accessOutsideMap (.inr (.inl ⟨ea, h, ha, hr⟩))
  · exact .of_unspecified .misalignedData ⟨ea, .inl h, ha⟩

theorem goesOnOrUnspecified_of_writesDataAt {ea : Addr} (h : WritesDataAt s i ea) : GoesOnOrUnspecified s i := by
  obtain ⟨v, e⟩ := exec_of_writesDataAt h
  by_cases ha : ea.toNat % 8 = 0
  · by_cases hm : MappedAt s ea
    · by_cases hw : DataWritableAt s ea
      · exact .of_next (e.trans (storeNext_of_writable ha hw))
      · exact .of_unspecified .storeToReadOnly ⟨ea, h, ha, hm, hw⟩
    · exact .of_unspecified .accessOutsideMap (.inr (.inr ⟨ea, h, ha, hm⟩))
  · exact .of_unspecified .misalignedData ⟨ea, .inr h, ha⟩

theorem goesOnOrUnspecified_of_transfersTo {npc nib : Addr} (h : TransfersTo s i npc nib) : GoesOnOrUnspecified s i := by
  obtain ⟨t, e⟩ := exec_of_transfersTo h
  by_cases ha : npc.toNat % 2 = 0 ∧ nib.toNat % 64 = 0
  · exact .of_next (e.trans (transfer_of_aligned ha))
  · exact .of_unspecified .misalignedTarget ⟨npc, nib, h, ha⟩

theorem constReadable_of_not_unreadable {n off : Nat} (h : ¬ ConstantUnreadable s i) (hread : constantRead i = some (n, off)) :
    ConstReadableAt s n (s.ib + BitVec.ofNat 64 off) :=
  not_not.mp fun hr => h ⟨n, off, hread, hr⟩

theorem goesOnOrUnspecified (s : State) (i : Instr) : GoesOnOrUnspecified s i := by
  by_cases hc : ConstantUnreadable s i
  · exact .of_unspecified .accessOutsideMap (.inl hc)
  cases i with
  | jalib rc u =>
    have hr := constReadable_of_not_unreadable hc rfl
    exact goesOnOrUnspecified_of_transfersTo ⟨rc, u, _, hr, holds64_read64 s _, .inl ⟨rfl, rfl, rfl⟩⟩
  | jtlib rc u =>
    have hr := constReadable_of_not_unreadable hc rfl
    exact goesOnOrUnspecified_of_transfersTo ⟨rc, u, _, hr, holds64_read64 s _, .inr ⟨rfl, rfl, rfl⟩⟩
  | movib rc u =>
    have hr := constReadable_of_not_unreadable hc rfl
    exact .of_next (exec_movib_of_const (ib64Const_of_holds hr (holds64_read64 s _)))
  | addib rc u =>
    have hr := constReadable_of_not_unreadable hc rfl
    exact .of_next (exec_addib_of_const (ib32Const_of_holds hr (holds32_read32 s _)))
  | leapc rc u =>
    have hr := constReadable_of_not_unreadable hc rfl
    exact .of_next (exec_leapc_of_addr (pcRelAddr_of_holds hr (holds32_read32 s _)))
  | loadpc rc u =>
    have hr := constReadable_of_not_unreadable hc rfl
    exact goesOnOrUnspecified_of_readsDataAt (.inr ⟨rc, u, _, rfl, hr, holds32_read32 s _, rfl⟩)
  | storepc rc u =>
    have hr := constReadable_of_not_unreadable hc rfl
    exact goesOnOrUnspecified_of_writesDataAt (.inr ⟨rc, u, _, rfl, hr, holds32_read32 s _, rfl⟩)
  | load rc rb u => exact goesOnOrUnspecified_of_readsDataAt (.inl ⟨rc, rb, u, rfl, rfl⟩)
  | store rc rb u => exact goesOnOrUnspecified_of_writesDataAt (.inl ⟨rc, rb, u, rfl, rfl⟩)
  | b z =>
    by_cases h : s.flag = true
    · exact .of_next (exec_b_of_flag z h)
    · exact .of_next (exec_b_of_not_flag z h)
  | compareMov rc rb =>
    by_cases h : s.flag = true
    · exact .of_next (exec_compareMov_of_flag rc rb h)
    · exact .of_next (exec_compareMov_of_not_flag rc rb h)
  | div rc rb ra =>
    by_cases h : readReg s ra = 0
    · exact .of_next (exec_div_of_zero h)
    · exact .of_next (exec_div_of_ne_zero h)
  | brk _ | j _ | ibj _ | movi _ _ | addi _ _ | srli _ _ | srai _ _ | slli _ _ | compareLt _ _ | compareGe _ _
  | compareEq _ _ | compareNe _ _ | compareLtu _ _ | compareGeu _ _ | compareUnassigned _ _ | logicMov _ _ | logicNot _ _
  | logicNeg _ _ | logicBswap _ _ | logicCtz _ _ | logicClz _ _ | logicCtpop _ _ | logicSext _ _ | pin _ _ _ | and _ _ _
  | or _ _ _ | xor _ _ _ | add _ _ _ | srl _ _ _ | sra _ _ _ | sll _ _ _ | sub _ _ _ | mul _ _ _ | illegal _ =>
    exact .of_next rfl

theorem exec_fault_iff {f : Fault} : exec i s = .fault f ↔ UnspecifiedWhen s i f := by
  refine ⟨fun h => ?_, exec_of_unspecified⟩
  rcases goesOnOrUnspecified s i with ⟨t, e⟩ | ⟨g, e, hg⟩ <;> rw [h] at e
  · cases e
  · cases e; exact hg

theorem exec_ne_refused (r : Refusal) : exec i s ≠ .refused r := by
  rcases goesOnOrUnspecified s i with ⟨t, e⟩ | ⟨f, e, _⟩ <;> simp [e]

end Outcomes

/-! ## Steps -/

section Steps

variable {s : State} {w : Packet} {i : Instr}

theorem step_of_trapped (h : s.trapped = true) : step s = .fault (.trapped s.tcause s.tpc) := by
  simp [step, runEnded, h]

theorem step_of_fetch_error {f : Fault} (ht : s.trapped = false) (hf : fetch s = .error f) : step s = .fault f := by
  simp [step, runEnded, ht, hf]

theorem step_of_decoded (ht : s.trapped = false) (hf : fetch s = .ok w) (hd : decodePacket w = .ok i) :
    step s = exec i s := by
  simp [step, runEnded, ht, hf, hd]

theorem step_of_undecoded {e : DecodeError} (ht : s.trapped = false) (hf : fetch s = .ok w) (hd : decodePacket w = .error e) :
    step s = .next (takeTrap s .illegalInstruction) := by
  simp [step, runEnded, ht, hf, hd, takeUndecoded]

theorem fetch_of_both (h0 : fetchable s.map s.pc = true) (h1 : fetchable s.map (s.pc + 1) = true) :
    fetch s = .ok (packetOfBytes (readByte s s.pc) (readByte s (s.pc + 1))) := by
  refine fetch_of_fetchable fun k hk => ?_
  obtain rfl | rfl : k = 0 ∨ k = 1 := by omega
  · simpa using h0
  · exact h1

theorem fetch_of_either (h : fetchable s.map s.pc = false ∨ fetchable s.map (s.pc + 1) = false) :
    fetch s = .error .fetchOutsideMap := by
  rcases h with h | h
  · exact fetch_of_not_fetchable (k := 0) (by decide) (by simpa using h)
  · exact fetch_of_not_fetchable (k := 1) (by decide) h

theorem not_fetchable_of_fetch_error {f : Fault} (h : fetch s = .error f) :
    fetchable s.map s.pc = false ∨ fetchable s.map (s.pc + 1) = false := by
  by_contra both
  simp only [not_or, Bool.not_eq_false] at both
  rw [fetch_of_both both.1 both.2] at h
  cases h

/-- Settles O5: the bytes at pc make up the packet that is fetched. -/
theorem stepRunsDecodedInstruction : Obligations.StepRunsDecodedInstruction :=
  fun _ _ ht h0 h1 hd => step_of_decoded ht (fetch_of_both h0 h1) hd

/-- Settles O6: the fetch fails, and with it the step. -/
theorem fetchOutsideMapStops : Obligations.FetchOutsideMapStops :=
  fun _ ht h => step_of_fetch_error ht (fetch_of_either h)

/-- Settles O9: of the ends of a step, only `exec` could refuse, and it does not. -/
theorem noStepIsRefused : Obligations.NoStepIsRefused := by
  intro s r
  rcases step_cases s with ⟨_, e⟩ | ⟨_, _, e⟩ | ⟨_, _, _, _, _, e⟩ | ⟨_, i, _, _, _, e⟩ <;> rw [e]
  · simp
  · simp
  · simp
  · exact exec_ne_refused r

theorem step_fault_trapped_iff {c : Cause} {p : Addr} :
    step s = .fault (.trapped c p) ↔ s.trapped = true ∧ c = s.tcause ∧ p = s.tpc := by
  rcases step_cases s with ⟨ht, e⟩ | ⟨ht, _, e⟩ | ⟨_, _, ht, _, _, e⟩ | ⟨_, i, ht, _, _, e⟩ <;> rw [e]
  · simp [ht, eq_comm]
  · simp [ht]
  · simp [ht]
  · simp [ht, exec_fault_iff, UnspecifiedWhen]

theorem step_fault_fetch_iff :
    step s = .fault .fetchOutsideMap ↔
      s.trapped = false ∧ (fetchable s.map s.pc = false ∨ fetchable s.map (s.pc + 1) = false) := by
  refine ⟨fun h => ?_, fun ⟨ht, hf⟩ => step_of_fetch_error ht (fetch_of_either hf)⟩
  rcases step_cases s with ⟨_, e⟩ | ⟨ht, hf, _⟩ | ⟨_, _, _, _, _, e⟩ | ⟨_, i, _, _, _, e⟩
  · simp [e] at h
  · exact ⟨ht, not_fetchable_of_fetch_error hf⟩
  · simp [e] at h
  · exact absurd (exec_fault_iff.mp (e ▸ h)) id

/-- Settles O56: the run's end, the fetch, and for a decoded instruction the conditions under which `exec` stops. -/
theorem stepStopsExactlyWhenUnspecified : Obligations.StepStopsExactlyWhenUnspecified := by
  refine fun s => ⟨fun c p => step_fault_trapped_iff, step_fault_fetch_iff, fun w i ht hf hd => ?_⟩
  rw [step_of_decoded ht hf hd]
  refine ⟨fun f => exec_fault_iff, fun none => ?_⟩
  rcases goesOnOrUnspecified s i with next | ⟨f, _, hf⟩
  · exact next
  · exact absurd hf (none f)

end Steps

end Sys2Proof.Machine
end

section
/-! PROOFS. Traps (spec/60_exceptions.md R161, R164, R168): which instructions raise one, with which cause, and that the run
ends in it. -/

namespace Sys2Proof.Machine

section Traps

variable {s t : State} {i : Instr} {c : Cause} {w : Packet}

/-- The trap an instruction raises in a state, if it raises one (R161). -/
def trapCause (s : State) (i : Instr) : Option Cause :=
  match i with
  | .brk _ => some .breakpoint
  | .illegal _ => some .illegalInstruction
  | .compareUnassigned _ _ => some .illegalInstruction
  | .div _ _ ra => if readReg s ra = 0 then some .divideByZero else none
  | _ => none

theorem trapCause_eq_breakpoint_iff : trapCause s i = some .breakpoint ↔ ∃ u, i = .brk u := by
  cases i <;> simp [trapCause]

theorem trapCause_eq_illegalInstruction_iff :
    trapCause s i = some .illegalInstruction ↔ (∃ u, i = .illegal u) ∨ ∃ rc rb, i = .compareUnassigned rc rb := by
  cases i <;> simp [trapCause]

theorem trapCause_eq_divideByZero_iff :
    trapCause s i = some .divideByZero ↔ ∃ rc rb ra, i = .div rc rb ra ∧ readReg s ra = 0 := by
  cases i <;> simp [trapCause]

/-- An instruction with a trap cause takes that trap. -/
theorem exec_of_trapCause (h : trapCause s i = some c) : exec i s = .next (takeTrap s c) := by
  cases c with
  | breakpoint =>
    obtain ⟨u, rfl⟩ := trapCause_eq_breakpoint_iff.mp h
    rfl
  | illegalInstruction =>
    obtain ⟨u, rfl⟩ | ⟨rc, rb, rfl⟩ := trapCause_eq_illegalInstruction_iff.mp h <;> rfl
  | divideByZero =>
    obtain ⟨rc, rb, ra, rfl, hz⟩ := trapCause_eq_divideByZero_iff.mp h
    exact exec_div_of_zero hz

theorem trapped_of_loadNext {rc : Reg} {ea : Addr} (h : loadNext s rc ea = .next t) : t.trapped = s.trapped := by
  obtain ⟨_, _, rfl⟩ := loadNext_next h
  simp

theorem trapped_of_storeNext {ea : Addr} {v : Word} (h : storeNext s ea v = .next t) : t.trapped = s.trapped := by
  obtain ⟨_, _, rfl⟩ := storeNext_next h
  simp

/-- An instruction without a trap cause does not end the run. -/
theorem trapped_of_exec (hc : trapCause s i = none) (h : exec i s = .next t) : t.trapped = s.trapped := by
  cases i with
  | brk _ | illegal _ | compareUnassigned _ _ => cases hc
  | div rc rb ra =>
    have nonzero : readReg s ra ≠ 0 := fun hz => by simp [trapCause, hz] at hc
    rw [exec_div_of_ne_zero nonzero] at h
    cases h; rfl
  | b _ | compareMov _ _ =>
    simp only [exec, execB, execCompareMov] at h
    split at h <;> (cases h; rfl)
  | jalib _ _ | jtlib _ _ =>
    simp only [exec, execJalib, execJtlib] at h
    split at h
    · cases h
    · obtain ⟨_, _, rfl⟩ := transfer_next h; rfl
  | movib _ _ | addib _ _ | leapc _ _ =>
    simp only [exec, execMovib, execAddib, execLeapc] at h
    split at h
    · cases h
    · cases h; rfl
  | loadpc _ _ =>
    simp only [exec, execLoadpc] at h
    split at h
    · cases h
    · exact trapped_of_loadNext h
  | storepc _ _ =>
    simp only [exec, execStorepc] at h
    split at h
    · cases h
    · exact trapped_of_storeNext h
  | load _ _ _ => exact trapped_of_loadNext h
  | store _ _ _ => exact trapped_of_storeNext h
  | j _ | ibj _ | movi _ _ | addi _ _ | srli _ _ | srai _ _ | slli _ _ | compareLt _ _ | compareGe _ _ | compareEq _ _
  | compareNe _ _ | compareLtu _ _ | compareGeu _ _ | logicMov _ _ | logicNot _ _ | logicNeg _ _ | logicBswap _ _
  | logicCtz _ _ | logicClz _ _ | logicCtpop _ _ | logicSext _ _ | pin _ _ _ | and _ _ _ | or _ _ _ | xor _ _ _ | add _ _ _
  | srl _ _ _ | sra _ _ _ | sll _ _ _ | sub _ _ _ | mul _ _ _ => cases h; rfl

theorem EntersTrap.cause_eq {c' : Cause} (h : EntersTrap c s (takeTrap s c')) : c' = c := by
  obtain ⟨⟨_, cause, _⟩, _⟩ := h
  exact cause

/-- In a run that has not ended, the instructions that enter a trap are those with its cause. -/
theorem exec_entersTrap_iff (ht : s.trapped = false) :
    (∃ t, exec i s = .next t ∧ EntersTrap c s t) ↔ trapCause s i = some c := by
  constructor
  · rintro ⟨t, h, enters⟩
    cases hc : trapCause s i with
    | none =>
      obtain ⟨_, ended, _⟩ := enters
      rw [trapped_of_exec hc h, ht] at ended
      cases ended
    | some c' =>
      rw [exec_of_trapCause hc] at h
      cases h
      rw [enters.cause_eq]
  · exact fun h => ⟨_, exec_of_trapCause h, entersTrap_takeTrap s c⟩

theorem takeTrap_entersTrap_iff {c' : Cause} :
    (∃ t, (.next (takeTrap s c') : Result) = .next t ∧ EntersTrap c s t) ↔ c' = c := by
  refine ⟨fun ⟨t, h, enters⟩ => ?_, fun h => ⟨_, rfl, h ▸ entersTrap_takeTrap s c'⟩⟩
  cases h
  exact enters.cause_eq

/-! ## Packets that do not decode (R53, R58) -/

theorem decodePacket_error_iff : (∃ e, decodePacket w = .error e) ↔ fieldSz w ≠ 0b00 := by
  rcases decodePacket_cases w with ⟨hsz, e⟩ | ⟨hsz, e⟩ | ⟨hsz, e⟩ | ⟨hsz, e⟩ <;> simp [hsz, e]

/-- The size field lies in the byte at the lower address (R35, R51). -/
theorem fieldSz_packetOfBytes (lo hi : Byte) : fieldSz (packetOfBytes lo hi) = lo.extractLsb' 0 2 :=
  BitVec.extractLsb'_append_eq_of_add_le (by decide)

/-- Settles O7: such a packet does not decode, and the step takes the trap. -/
theorem longPacketTraps : Obligations.LongPacketTraps := by
  intro s ht h0 h1 hsz
  obtain ⟨e, hd⟩ := decodePacket_error_iff.mpr (fieldSz_packetOfBytes _ (readByte s (s.pc + 1)) ▸ hsz)
  exact ⟨_, step_of_undecoded ht (fetch_of_both h0 h1) hd, entersTrap_takeTrap s _⟩

theorem run_succ_of_fault (n : Nat) {f : Fault} (h : step s = .fault f) : Sys2Proof.core.run (n + 1) s = .fault f := by
  have h' : Sys2Proof.core.step s = .fault f := h
  simp only [Host.Core.run, h']

theorem run_succ_of_next (n : Nat) (h : step s = .next t) : Sys2Proof.core.run (n + 1) s = Sys2Proof.core.run n t := by
  have h' : Sys2Proof.core.step s = .next t := h
  simp only [Host.Core.run, h']

/-- Settles O8: the state a trap entry leaves answers with its saved cause and pc, and a run stops at its first step. -/
theorem trapEndsRun : Obligations.TrapEndsRun := by
  intro s t c ⟨⟨tpc, cause, _⟩, ended, _⟩
  have answer : step t = .fault (.trapped c s.pc) := by rw [step_of_trapped ended, cause, tpc]
  exact ⟨answer, fun n => run_succ_of_fault n answer⟩

/-- Settles O10: both end in trap entry, and their immediate is read back from the packet. -/
theorem breakAndIllegalTakeTraps : Obligations.BreakAndIllegalTakeTraps := by
  intro u s
  have fits (h : u < 512) : fitsUimm9 u = true := decide_eq_true h
  refine ⟨⟨fun h => encodedAs_of_wellFormed (i := .brk u) (fits h), rfl, takeTrap s .breakpoint, rfl, ?_⟩,
    fun h => encodedAs_of_wellFormed (i := .illegal u) (fits h), fun v => ?_, takeTrap s .illegalInstruction, rfl, ?_⟩
  · exact ⟨(entersTrap_takeTrap s _).1, rfl, rfl⟩
  · exact fun h => absurd (decodePacket_ok h).1 (by decide)
  · exact ⟨(entersTrap_takeTrap s _).1, rfl, rfl⟩

/-- Settles O11: with fun3 = 7 the compare is trap entry. -/
theorem unassignedCompareTakesTrap : Obligations.UnassignedCompareTakesTrap := fun _ _ s =>
  ⟨encodedAs_compare rfl rfl, takeTrap s .illegalInstruction, rfl, entersTrap_takeTrap s _⟩

/-- Settles O12: a decoded instruction enters the traps of its cause, and an undecoded packet the illegal instruction trap. -/
theorem trapsAreTheFive : Obligations.TrapsAreTheFive := by
  intro s w c ht hf
  cases hd : decodePacket w with
  | ok i =>
    rw [step_of_decoded ht hf hd, exec_entersTrap_iff ht]
    have hsz : w.extractLsb' 0 2 = 0b00 := (decodePacket_ok hd).1
    cases c with
    | breakpoint => simp [trapCause_eq_breakpoint_iff]
    | illegalInstruction => simp [trapCause_eq_illegalInstruction_iff, hsz]
    | divideByZero => simp [trapCause_eq_divideByZero_iff]
  | error e =>
    rw [step_of_undecoded ht hf hd, takeTrap_entersTrap_iff]
    have hsz : fieldSz w ≠ 0b00 := decodePacket_error_iff.mp ⟨e, hd⟩
    cases c with
    | illegalInstruction => exact iff_of_true rfl (.inr (.inr hsz))
    | breakpoint | divideByZero => simp

end Traps

end Sys2Proof.Machine
end

section
/-! PROOFS. What every step and every run keeps: the alignments (R18, R21, R26), the map (R43) and the bytes of code and
constants (R48); and what no instruction writes (R15, R22, R23, R76). -/

namespace Sys2Proof.Machine

section Keeps

variable {s t : State} {i : Instr}

/-! ## Alignment -/

/-- Addresses wrap at a multiple of `m`, so sums of multiples of `m` stay multiples of it (R19). -/
theorem aligned_add {m : Nat} (hm : m ∣ 2 ^ 64) {a b : Addr} (ha : a.toNat % m = 0) (hb : b.toNat % m = 0) :
    (a + b).toNat % m = 0 := by
  rw [BitVec.toNat_add, Nat.mod_mod_of_dvd _ hm, Nat.add_mod, ha, hb, Nat.zero_mod]

theorem aligned_mul {m : Nat} (hm : m ∣ 2 ^ 64) (a : Addr) {b : Addr} (hb : b.toNat % m = 0) : (a * b).toNat % m = 0 := by
  rw [BitVec.toNat_mul, Nat.mod_mod_of_dvd _ hm, Nat.mul_mod, hb, Nat.mul_zero, Nat.zero_mod]

theorem pcEven_advance (h : pcEven s) : pcEven (advance s) := aligned_add (by decide) h rfl

theorem pcEven_branch (z : Int) (h : pcEven s) : pcEven (setPc s (branchTarget s z)) :=
  aligned_add (by decide) (aligned_add (by decide) h (aligned_mul (by decide) _ rfl)) rfl

theorem ibAligned_block (z : Int) (h : ibAligned s) : ibAligned (setIb s (blockTarget s z)) :=
  aligned_add (by decide) h (aligned_mul (by decide) _ rfl)

theorem trapVector_even : Config.trapVector.toNat % 2 = 0 := by
  simp only [Config.trapVector, BitVec.toNat_append]
  simp [Nat.shiftLeft_eq]

/-! ## The invariant -/

theorem stateInvariant_of_advance (hs : StateInvariant s) (hpc : t.pc = s.pc + 2) (hib : t.ib = s.ib) (htpc : t.tpc = s.tpc)
    (hmap : t.map = s.map) (hmem : Memory.wf t.mem = true) : StateInvariant t := by
  obtain ⟨pc, ib, tpc, map, _⟩ := hs
  exact ⟨by rw [pcEven, hpc]; exact pcEven_advance pc, by rwa [ibAligned, hib], by rwa [tpcEven, htpc], hmap ▸ map, hmem⟩

/-- Every way to complete keeps the invariant. -/
theorem Completes.keeps_invariant (h : Completes s i t) (hs : StateInvariant s) : StateInvariant t := by
  have ⟨pc, ib, tpc, map, mem⟩ := hs
  cases h with
  | advance | register | flag => exact ⟨pcEven_advance pc, ib, tpc, map, mem⟩
  | load => exact stateInvariant_of_advance hs (by simp) (by simp) (by simp) (by simp) (by simpa using mem)
  | store ea v =>
    exact stateInvariant_of_advance hs (by simp) (by simp) (by simp) (by simp) (by simpa using wf_storeBytes mem 8 ea v)
  | jump z => exact ⟨pcEven_branch z pc, ib, tpc, map, mem⟩
  | block z => exact ⟨pcEven_advance pc, ibAligned_block z ib, tpc, map, mem⟩
  | call _ _ _ _ _ npc nib | ret _ _ _ _ npc nib => exact ⟨npc, nib, tpc, map, mem⟩
  | trap => exact ⟨trapVector_even, ib, pc, map, mem⟩

/-- A step that answers a next state completes an instruction, or takes the trap of an undecoded packet. -/
theorem step_next_cases (h : step s = .next t) :
    (∃ i, Completes s i t ∧ step s = exec i s) ∨ t = takeTrap s .illegalInstruction := by
  rcases step_cases s with ⟨_, e⟩ | ⟨_, _, e⟩ | ⟨_, _, _, _, _, e⟩ | ⟨_, i, _, _, _, e⟩
  · rw [e] at h; cases h
  · rw [e] at h; cases h
  · rw [e] at h; cases h; exact .inr rfl
  · exact .inl ⟨i, completes_of_exec (e ▸ h), e⟩

/-- Settles O48: an instruction keeps the invariant in whichever way it completes, and so does the trap of a packet that does
not decode. -/
theorem stepKeepsInvariant : Obligations.StepKeepsInvariant := by
  intro s t hs h
  rcases step_next_cases h with ⟨i, done, _⟩ | rfl
  · exact done.keeps_invariant hs
  · exact (Completes.trap (i := .illegal 0) .illegalInstruction).keeps_invariant hs

/-! ## Runs -/

/-- What every step keeps, every run keeps. -/
theorem run_keeps {P : State → Prop} (keep : ∀ s t : State, P s → step s = .next t → P t) :
    ∀ (n : Nat) (s t : State), P s → Sys2Proof.core.run n s = .next t → P t := by
  intro n
  induction n with
  | zero =>
    intro s t hs h
    cases h
    exact hs
  | succ n ih =>
    intro s t hs h
    cases hstep : step s with
    | next m =>
      rw [run_succ_of_next n hstep] at h
      exact ih m t (keep s m hs hstep) h
    | fault f =>
      rw [run_succ_of_fault n hstep] at h
      cases h
    | refused r => exact absurd hstep (noStepIsRefused s r)

/-- Settles O49: by induction on the run. -/
theorem runKeepsInvariant : Obligations.RunKeepsInvariant := run_keeps stepKeepsInvariant

/-! ## Code and constants (R43, R48) -/

/-- The bytes outside the eight a store writes keep their values. -/
theorem sameMemoryExcept_store (s : State) (ea : Addr) (v : Word) (e : DeviceEvent) :
    SameMemoryExcept ea s (advance (recordAccess (storeBytes 8 s ea v) ea e)) := by
  intro a outside
  rw [readByte_advance, readByte_recordAccess]
  exact readByte_storeBytes_other 8 s ea a v fun k hk hak => outside ⟨k, hk, hak⟩

/-- A way to complete other than a store keeps every byte; a store keeps the bytes outside writable ones. -/
theorem Completes.keeps_memory (h : Completes s i t) :
    SameMemory s t ∨ (((∃ rc u, i = .storepc rc u) ∨ ∃ rc rb u, i = .store rc rb u) ∧
      ∃ ea, DataWritableAt s ea ∧ SameMemoryExcept ea s t) := by
  cases h with
  | store ea v isStore _ hw => exact .inr ⟨isStore, ea, hw, sameMemoryExcept_store s ea v _⟩
  | load => exact .inl fun a => by simp
  | advance | register | flag | jump | block | call | ret | trap => exact .inl fun _ => rfl

theorem Completes.keeps_map (h : Completes s i t) : t.map = s.map := by
  cases h with
  | advance | register | load | store | flag | jump | block | call | ret | trap => simp

/-- A byte that may be fetched or read as a constant is outside every writable word of a legal map. -/
theorem not_inWord_of_readOnly {map : List Region} {ea a : Addr} (hl : mapLegal map = true) (ha : ReadOnlyByte map a)
    (hw : ∀ k < 8, dataWritable map (ea + BitVec.ofNat 64 k) = true) : ¬ InWord ea a := by
  rintro ⟨k, hk, rfl⟩
  exact absurd (hw k hk) (by simp [readOnly_not_writable hl ha])

theorem Completes.keeps_readOnly (h : Completes s i t) (hl : mapLegal s.map = true) {a : Addr} (ha : ReadOnlyByte s.map a) :
    readByte t a = readByte s a := by
  rcases h.keeps_memory with same | ⟨_, ea, hw, same⟩
  · exact same a
  · exact same a (not_inWord_of_readOnly hl ha hw)

theorem step_keeps_map (h : step s = .next t) : t.map = s.map := by
  rcases step_next_cases h with ⟨i, done, _⟩ | rfl
  · exact done.keeps_map
  · rfl

theorem step_keeps_readOnly (hl : mapLegal s.map = true) (h : step s = .next t) {a : Addr} (ha : ReadOnlyByte s.map a) :
    readByte t a = readByte s a := by
  rcases step_next_cases h with ⟨i, done, _⟩ | rfl
  · exact done.keeps_readOnly hl ha
  · rfl

/-- A state with the map of `s`, and the code and constants of `s` in it. -/
def KeepsCodeOf (s t : State) : Prop := t.map = s.map ∧ ∀ a, ReadOnlyByte s.map a → readByte t a = readByte s a

theorem step_keepsCodeOf {o : State} (hl : mapLegal o.map = true) (hs : KeepsCodeOf o s) (h : step s = .next t) :
    KeepsCodeOf o t := by
  obtain ⟨map, code⟩ := hs
  refine ⟨(step_keeps_map h).trans map, fun a ha => ?_⟩
  rw [← map] at hl
  exact (step_keeps_readOnly hl h (map ▸ ha)).trans (code a ha)

/-- Settles O50: every step keeps the map and the bytes that are not writable in it, and a store to such a byte stops. -/
theorem runKeepsCodeAndConstants : Obligations.RunKeepsCodeAndConstants := by
  constructor
  · intro n s t hl h
    exact run_keeps (fun _ _ => step_keepsCodeOf hl) n s t ⟨rfl, fun _ _ => rfl⟩ h
  · intro rc rb u k s hl ha hm hk hro
    exact storeNext_of_readOnly ha hm fun hw => not_inWord_of_readOnly hl hro hw ⟨k, hk, rfl⟩

/-! ## What instructions write (R15, R22, R23, R76) -/

/-- Settles O51: of the ways to complete, only a comparison writes flag. -/
theorem flagWrittenOnlyByComparisons : Obligations.FlagWrittenOnlyByComparisons := by
  intro i s t h hflag
  cases completes_of_exec h with
  | flag _ comparison => exact comparison
  | advance | register | load | store | jump | block | call | ret | trap => exact absurd (by simp) hflag

theorem Completes.trapState (h : Completes s i t) : SameTrapState s t ∨ ∃ c, EntersTrap c s t := by
  cases h with
  | trap c => exact .inr ⟨c, entersTrap_takeTrap s c⟩
  | advance | register | load | store | flag | jump | block | call | ret => exact .inl (by simp [SameTrapState])

/-- Settles O53: a way to complete other than trap entry keeps the trap state. -/
theorem stepKeepsTrapStateOrEntersTrap : Obligations.StepKeepsTrapStateOrEntersTrap := by
  intro s t h
  rcases step_next_cases h with ⟨i, done, _⟩ | rfl
  · exact done.trapState
  · exact .inr ⟨_, entersTrap_takeTrap s _⟩

theorem Completes.written_register (h : Completes s i t) {r : Reg} (hr : readReg t r ≠ readReg s r) :
    destination i = some r := by
  have only_rc {rc : Reg} {v : Word} (hw : (if r = rc then v else readReg s r) ≠ readReg s r) : rc = r :=
    Eq.symm (not_not.mp fun hne => hw (if_neg hne))
  cases h with
  | register v hd => exact only_rc (by simpa using hr) ▸ hd
  | load ea v hd => exact only_rc (by simpa using hr) ▸ hd
  | call rc u link npc nib => exact congrArg some (only_rc (by simpa using hr))
  | store ea v => exact absurd (readReg_of_regs (by simp) r) hr
  | advance | flag | jump | block | ret | trap => exact absurd rfl hr

/-- Settles O54: a register result goes to the destination, and only the two stores write memory. -/
theorem onlyDestinationsWritten : Obligations.OnlyDestinationsWritten := by
  intro i s t h
  have done := completes_of_exec h
  refine ⟨fun r => done.written_register, fun ⟨a, ha⟩ => ?_⟩
  rcases done.keeps_memory with same | ⟨isStore, _⟩
  · exact absurd (same a) ha
  · exact isStore

/-- Settles O55: the ways to complete that do not advance are the jumps, the transfers and trap entry. -/
theorem otherInstructionsAdvance : Obligations.OtherInstructionsAdvance := by
  intro i s t h noTrap notJ notB notJalib notJtlib
  cases completes_of_exec h with
  | advance | register | load | store | flag | block => simp
  | jump z isJump =>
    rcases isJump with rfl | rfl
    · exact absurd rfl (notJ z)
    · exact absurd rfl (notB z)
  | call rc u => exact absurd rfl (notJalib rc u)
  | ret rc u => exact absurd rfl (notJtlib rc u)
  | trap c => exact absurd (entersTrap_takeTrap s c) (noTrap c)

end Keeps

/-! ## Reset (R27, R181) -/

/-- The page of constants at reset is readable as such, byte by byte. -/
theorem constReadable_reset {a : Addr} (hlo : 0x2000 ≤ a.toNat) (hhi : a.toNat < 0x3000) :
    constReadable State.reset.map a = true := by
  have notText : Region.holds { base := 0x1000, size := 0x1000, perm := Perm.text } a = false := by
    simp [Region.holds]; omega
  have isConst : Region.holds { base := 0x2000, size := 0x1000, perm := Perm.const } a = true := by
    simp [Region.holds]; omega
  simp [constReadable, permAt, State.reset, Config.resetMap, notText, isConst]
  rfl

/-- Settles O47: the values at reset evaluate; the 512 bytes from ib lie in the page of constants. -/
theorem resetMeetsInvariant : Obligations.ResetMeetsInvariant := by
  refine ⟨⟨rfl, rfl, rfl, by decide, rfl⟩, by decide, by decide, fun k hk => ?_, rfl⟩
  have addr : (State.reset.ib + BitVec.ofNat 64 k).toNat = 0x2000 + k := by
    simp [State.reset, Config.resetIb, BitVec.toNat_add]; omega
  exact constReadable_reset (by omega) (by omega)

end Sys2Proof.Machine
end

section
/-! PROOFS. Control transfer (spec/40_control.md R71 to R78, spec/45_assembler_abi.md R150): the jumps, the call and the
return, and the lanes of a relative address vector (R10). -/

namespace Sys2Proof.Machine

/-! ## Jumps (R71 to R73) -/

section Jumps

variable (s : State) (z : Int)

theorem branchTarget_eq : branchTarget s z = s.pc + BitVec.ofInt 64 (z * 2 + 2) := by
  rw [BitVec.ofInt_add, BitVec.ofInt_mul, ← BitVec.add_assoc]
  rfl

theorem blockTarget_eq : blockTarget s z = s.ib + BitVec.ofInt 64 (z * 64) := by
  rw [BitVec.ofInt_mul]
  rfl

theorem fitsSimm9_of_bounds {z : Int} (hlo : -256 ≤ z) (hhi : z ≤ 255) : fitsSimm9 z = true :=
  Bool.and_eq_true_iff.mpr ⟨decide_eq_true hlo, decide_eq_true hhi⟩

/-- Settles O13: the jump sets pc alone, to its target. -/
theorem jumpTarget : Obligations.JumpTarget := fun z s =>
  ⟨fun hlo hhi => encodedAs_of_wellFormed (i := .j z) (fitsSimm9_of_bounds hlo hhi),
    setPc s (branchTarget s z), rfl, branchTarget_eq s z, pcEven_branch z, rfl, onlyTargetsWritten_setPc s _⟩

/-- Settles O14: with flag = 1 the branch is the jump, and with flag = 0 it advances. -/
theorem branchTestsFlag : Obligations.BranchTestsFlag := by
  intro z s
  refine ⟨fun hlo hhi => encodedAs_of_wellFormed (i := .b z) (fitsSimm9_of_bounds hlo hhi), ?_⟩
  by_cases h : s.flag = true
  · exact ⟨_, exec_b_of_flag z h, fun _ => branchTarget_eq s z, by simp [h], pcEven_branch z, rfl, onlyTargetsWritten_setPc s _⟩
  · exact ⟨_, exec_b_of_not_flag z h, fun hf => absurd hf h, fun _ => rfl, pcEven_advance, rfl,
      onlyTargetsWritten_setPc s (s.pc + 2)⟩

/-- Settles O15: the block jump sets ib to its target and advances. -/
theorem immediateBlockJump : Obligations.ImmediateBlockJump := fun z s =>
  ⟨fun hlo hhi => encodedAs_of_wellFormed (i := .ibj z) (fitsSimm9_of_bounds hlo hhi),
    advance (setIb s (blockTarget s z)), rfl, blockTarget_eq s z, ibAligned_block z, rfl,
    onlyTargetsWritten_setPc_setIb s (s.pc + 2) (blockTarget s z)⟩

end Jumps

/-! ## Lanes (R10, R11) -/

section Lanes

variable (a b : Word)

theorem low32_eq_setWidth : low32 a = a.setWidth 32 := (BitVec.setWidth_eq_extractLsb' (by decide)).symm

theorem low32_add : low32 (a + b) = low32 a + low32 b := by
  simp only [low32_eq_setWidth, BitVec.setWidth_add a b (by decide : 32 ≤ 64)]

theorem low32_sub : low32 (a - b) = low32 a - low32 b :=
  eq_sub_of_add_eq (by rw [← low32_add, sub_add_cancel])

theorem toInt_low32 : (low32 a).toInt = a.toInt.bmod (2 ^ 32) := by
  rw [low32_eq_setWidth, BitVec.toInt_setWidth, BitVec.toInt_eq_toNat_bmod, Int.bmod_bmod_of_dvd (by decide)]

theorem toInt_sext32 (v : BitVec 32) : (sext32 v).toInt = v.toInt := BitVec.toInt_signExtend_of_le (by decide)

theorem low32_sext32 (v : BitVec 32) : low32 (sext32 v) = v := by
  apply BitVec.eq_of_toInt_eq
  rw [toInt_low32, toInt_sext32, BitVec.toInt_bmod_cancel]

theorem lane0_packLanes (lo hi : BitVec 32) : lane0 (packLanes lo hi) = lo := BitVec.extractLsb'_append_eq_right

theorem lane1_packLanes (lo hi : BitVec 32) : lane1 (packLanes lo hi) = hi := BitVec.extractLsb'_append_eq_left

variable {a b}

/-- A difference that fits 32 signed bits is not changed by cutting it to them (R77). -/
theorem sext32_low32_of_fits (h : Fits32 a) : sext32 (low32 a) = a := by
  apply BitVec.eq_of_toInt_eq
  rw [toInt_sext32, toInt_low32]
  exact Int.bmod_eq_of_le (by omega) (by omega)

/-- A cut displacement reaches its target, when it fits. -/
theorem add_sext32_of_fits (h : Fits32 (b - a)) : a + sext32 (low32 (b - a)) = b := by
  rw [sext32_low32_of_fits h, add_sub_cancel]

end Lanes

/-! ## Call and return (R74, R75) -/

section CallReturn

variable {s t : State} {rc : Reg} {u : Nat} {npc nib : Addr}

/-- Settles O16: with the constant read, the call is a transfer of (pc, ib) after the link is written. -/
theorem jalibCalls : Obligations.JalibCalls := by
  intro rc u s tmp
  refine ⟨fun h => encodedAs_of_wellFormed (i := .jalib rc u) (decide_eq_true h), fun hr hc => ?_,
    fun hn => exec_of_constantUnreadable ⟨8, u * 8, rfl, hn⟩⟩
  have moves := exec_jalib_of_const (rc := rc) (ib64Const_of_holds hr hc)
  split
  next aligned =>
    exact ⟨_, moves.trans (transfer_of_aligned aligned), by simp, rfl, rfl, fun r hr => by simp [hr], rfl, ⟨rfl, rfl, rfl⟩,
      fun _ => rfl, rfl, rfl⟩
  next misaligned => exact moves.trans (transfer_of_misaligned misaligned)

/-- Settles O17: with the constant read, the return is a transfer of (pc, ib) and writes nothing else. -/
theorem jtlibReturns : Obligations.JtlibReturns := by
  intro rc u s tmp
  refine ⟨fun h => encodedAs_of_wellFormed (i := .jtlib rc u) (decide_eq_true h), fun hr hc => ?_,
    fun hn => exec_of_constantUnreadable ⟨8, u * 8, rfl, hn⟩⟩
  have moves := exec_jtlib_of_const (rc := rc) (ib64Const_of_holds hr hc)
  split
  next aligned => exact ⟨_, moves.trans (transfer_of_aligned aligned), rfl, rfl, onlyTargetsWritten_setPc_setIb s _ _⟩
  next misaligned => exact moves.trans (transfer_of_misaligned misaligned)

/-- A call that completes leaves its constant in the link register and its target in (pc, ib). -/
theorem exec_jalib_next (h : exec (.jalib rc u) s = .next t) :
    t.pc = s.pc + sext32 (lane0 (readReg t rc)) + 2 ∧ t.ib = s.ib + sext32 (lane1 (readReg t rc)) := by
  cases hc : ib64Const s u with
  | error f => simp [exec, execJalib, hc] at h
  | ok link =>
    rw [exec_jalib_of_const hc] at h
    obtain ⟨_, _, rfl⟩ := transfer_next h
    simp

/-- A return whose lane differences lead to an aligned pair completes there. -/
theorem exec_jtlib_reaches {c : Word} (hr : ConstReadableAt s 8 (s.ib + BitVec.ofNat 64 (u * 8)))
    (hc : Holds64 s (s.ib + BitVec.ofNat 64 (u * 8)) c)
    (hpc : s.pc + sext32 (lane0 c - lane0 (readReg s rc)) = npc)
    (hib : s.ib + sext32 (lane1 c - lane1 (readReg s rc)) = nib) (aligned : npc.toNat % 2 = 0 ∧ nib.toNat % 64 = 0) :
    ∃ t, exec (.jtlib rc u) s = .next t ∧ t.pc = npc ∧ t.ib = nib ∧ OnlyTargetsWritten s t := by
  have moves := exec_jtlib_of_const (rc := rc) (ib64Const_of_holds hr hc)
  rw [hpc, hib, transfer_of_aligned aligned] at moves
  exact ⟨_, moves, rfl, rfl, onlyTargetsWritten_setPc_setIb s npc nib⟩

/-- What is left of the way to a function's entry, less the way of the call, is the way back to the caller (R77). -/
theorem sub_lane_eq_way_back {entry here back : Addr} {lane : BitVec 32} (hentry : entry = back + sext32 lane) :
    low32 (entry - here) - lane = low32 (back - here) := by
  calc low32 (entry - here) - lane
    _ = low32 (entry - here) - low32 (sext32 lane) := by rw [low32_sext32]
    _ = low32 (back + sext32 lane - here - sext32 lane) := by rw [← low32_sub, hentry]
    _ = low32 (back - here) := congrArg low32 (by ring)

/-- Settles O18: the link register holds the call's displacement, so the return's difference is the way back. -/
theorem returnResumesAfterCall : Obligations.ReturnResumesAfterCall := by
  intro link i k s f u c even aligned hcall hlink hr hc hlane0 hlane1 hfit0 hfit1
  obtain ⟨hpc, hib⟩ := exec_jalib_next hcall
  rw [add_right_comm, ← hlink] at hpc
  rw [← hlink] at hib
  refine exec_jtlib_reaches hr hc ?_ ?_ ⟨pcEven_advance even, aligned⟩
  · rw [show lane0 c = low32 (f.pc - u.pc) from hlane0, sub_lane_eq_way_back hpc, add_sext32_of_fits hfit0]
  · rw [show lane1 c = low32 (f.ib - u.ib) from hlane1, sub_lane_eq_way_back hib, add_sext32_of_fits hfit1]

theorem exec_pin (rc rb ra : Reg) (s : State) :
    exec (.pin rc rb ra) s = setRegNext s rc (pinVector s (readReg s rb) (readReg s ra)) := by rfl

theorem zero_sub_low32 (a b : Word) : 0 - low32 (a - b) = low32 (b - a) := by
  rw [low32_sub, low32_sub, zero_sub, neg_sub]

/-- Settles O19: the return takes away what `pin` left, the way from the target to here. -/
theorem pinThenJtlibGoesToAbsoluteTarget : Obligations.PinThenJtlibGoesToAbsoluteTarget := by
  intro rc rb ra k s p hpin hr hc even aligned hfit0 hfit1
  cases (exec_pin rc rb ra s).symm.trans hpin
  refine exec_jtlib_reaches hr hc ?_ ?_ ⟨even, aligned⟩
  · rw [readReg_advance_writeReg, pinVector, lane0_packLanes]
    exact (congrArg (s.pc + 2 + sext32 ·) (zero_sub_low32 _ _)).trans (add_sext32_of_fits hfit0)
  · rw [readReg_advance_writeReg, pinVector, lane1_packLanes]
    exact (congrArg (s.ib + sext32 ·) (zero_sub_low32 _ _)).trans (add_sext32_of_fits hfit1)

/-- Settles O59: the relocation's lanes are the ways from the call to the labels. -/
theorem callRelocationReachesLabels : Obligations.CallRelocationReachesLabels := by
  intro n s text const even aligned hfit0 hfit1 hr hc
  have moves := exec_jalib_of_const (rc := linkReg) (ib64Const_of_holds hr hc)
  have pc : s.pc + sext32 (lane0 (callReloc text const s.pc s.ib)) + 2 = text := by
    rw [add_right_comm, callReloc, lane0_packLanes, add_sext32_of_fits hfit0]
  have ib : s.ib + sext32 (lane1 (callReloc text const s.pc s.ib)) = const := by
    rw [callReloc, lane1_packLanes, add_sext32_of_fits hfit1]
  rw [pc, ib, transfer_of_aligned ⟨even, aligned⟩] at moves
  exact ⟨_, moves, rfl, rfl, by simp [linkReg]⟩

end CallReturn

end Sys2Proof.Machine
end

section
/-! PROOFS. One register with an immediate or a constant (spec/41_immediate.md R80 to R86, spec/42_memory_access.md R90), and
what the assembler makes of them (spec/45_assembler_abi.md R149). -/

namespace Sys2Proof.Machine

section Immediates

variable {s : State} {i : Instr} {rc : Reg} {v : Word}

/-- An instruction that ends by writing `v` to rc leaves there the number `v` is read as, and all else but pc. -/
theorem setsValue_of_exec {α : Type} (read : Word → α) {x : α} (h : exec i s = setRegNext s rc v) (hv : read v = x) :
    ∃ t, exec i s = .next t ∧ read (readReg t rc) = x ∧ OnlyRegWritten rc s t := by
  obtain ⟨t, ht, hrc, frame⟩ := setsReg_of_exec h
  exact ⟨t, ht, (congrArg read hrc).trans hv, frame⟩

/-! ## Constants (R80, R86, R90) -/

/-- Settles O20: the constant read is what `movib` writes to rc. -/
theorem movibLoadsConstant : Obligations.MovibLoadsConstant := fun rc u _ _ =>
  ⟨fun h => encodedAs_of_wellFormed (i := .movib rc u) (decide_eq_true h),
    fun hr hc => setsReg_of_exec (exec_movib_of_const (ib64Const_of_holds hr hc)),
    fun hn => exec_of_constantUnreadable ⟨8, u * 8, rfl, hn⟩⟩

theorem toInt_add_sext32 (a : Word) (c : BitVec 32) : (a + sext32 c).toInt = (a.toInt + c.toInt).bmod (2 ^ 64) := by
  rw [BitVec.toInt_add, toInt_sext32]

/-- Settles O24: the constant keeps its signed value when it is widened. -/
theorem addibAddsConstant : Obligations.AddibAddsConstant := fun rc u _ c =>
  ⟨fun h => encodedAs_of_wellFormed (i := .addib rc u) (decide_eq_true h),
    fun hr hc => setsValue_of_exec BitVec.toInt (exec_addib_of_const (ib32Const_of_holds hr hc)) (toInt_add_sext32 _ c),
    fun hn => exec_of_constantUnreadable ⟨4, u * 4, rfl, hn⟩⟩

/-- Settles O25: the address the constant forms is what `leapc` writes to rc. -/
theorem leapcFormsAddress : Obligations.LeapcFormsAddress := fun rc u _ _ =>
  ⟨fun h => encodedAs_of_wellFormed (i := .leapc rc u) (decide_eq_true h),
    fun hr hc => setsReg_of_exec (exec_leapc_of_addr (pcRelAddr_of_holds hr hc)),
    fun hn => exec_of_constantUnreadable ⟨4, u * 4, rfl, hn⟩⟩

/-! ## Immediates (R82, R112) -/

theorem exec_addi (rc : Reg) (z : Int) (s : State) : exec (.addi rc z) s = setRegNext s rc (readReg s rc + simm z) := by rfl

theorem exec_logicNeg (rc rb : Reg) (s : State) : exec (.logicNeg rc rb) s = setRegNext s rc (0 - readReg s rb) := by rfl

theorem toInt_zero_sub (a : Word) : (0 - a).toInt = (0 - a.toInt).bmod (2 ^ 64) := BitVec.toInt_sub

/-- Settles O22: sum and difference of words are those of their signed values, reduced. -/
theorem addiAndNegateWrap : Obligations.AddiAndNegateWrap := by
  intro rc rb z s
  refine ⟨fun hlo hhi => ⟨?_, ?_⟩, encodedAs_logic rfl rfl,
    setsValue_of_exec BitVec.toInt (exec_logicNeg rc rb s) (toInt_zero_sub _)⟩
  · exact encodedAs_of_wellFormed (i := .addi rc z) (Bool.and_eq_true_iff.mpr ⟨decide_eq_true hlo, decide_eq_true hhi⟩)
  · refine setsValue_of_exec BitVec.toInt (exec_addi rc z s) ?_
    rw [BitVec.toInt_add, toInt_simm hlo hhi]

/-! ## Shifts (R83 to R85) -/

theorem toNat_shiftRightLogical (v : Word) (n : Nat) : (shiftRightLogical v n).toNat = v.toNat / 2 ^ n :=
  Nat.shiftRight_eq_div_pow v.toNat n

theorem toInt_shiftRightArith (v : Word) (n : Nat) : (shiftRightArith v n).toInt = v.toInt / 2 ^ n := by
  rw [shiftRightArith, BitVec.toInt_sshiftRight, Int.shiftRight_eq_div_pow]
  norm_cast

theorem toNat_shiftLeft (v : Word) (n : Nat) : (shiftLeft v n).toNat = v.toNat * 2 ^ n % 2 ^ 64 := by
  rw [shiftLeft, BitVec.toNat_shiftLeft, Nat.shiftLeft_eq]

theorem exec_srli (rc : Reg) (n : Nat) (s : State) :
    exec (.srli rc n) s = setRegNext s rc (shiftRightLogical (readReg s rc) n) := by rfl

theorem exec_srai (rc : Reg) (n : Nat) (s : State) :
    exec (.srai rc n) s = setRegNext s rc (shiftRightArith (readReg s rc) n) := by rfl

theorem exec_slli (rc : Reg) (n : Nat) (s : State) :
    exec (.slli rc n) s = setRegNext s rc (shiftLeft (readReg s rc) n) := by rfl

/-- Settles O23: each shift ends by writing rc a word whose value is the quotient, or the product. -/
theorem immediateShifts : Obligations.ImmediateShifts := fun rc n s h =>
  ⟨⟨encodedAs_of_wellFormed (i := .srli rc n) (decide_eq_true h),
      setsValue_of_exec BitVec.toNat (exec_srli rc n s) (toNat_shiftRightLogical _ n)⟩,
    ⟨encodedAs_of_wellFormed (i := .srai rc n) (decide_eq_true h),
      setsValue_of_exec BitVec.toInt (exec_srai rc n s) (toInt_shiftRightArith _ n)⟩,
    encodedAs_of_wellFormed (i := .slli rc n) (decide_eq_true h),
    setsValue_of_exec BitVec.toNat (exec_slli rc n s) (toNat_shiftLeft _ n)⟩

/-! ## `li` and `la` (R149) -/

/-- Settles O60: `li` is a movi or a movib by the size of its value, and `la` a movib or a leapc of the symbol's distance. -/
theorem liAndLaReachTheirValues : Obligations.LiAndLaReachTheirValues := by
  intro rc slot s
  refine ⟨fun v present => ?_, fun symbol ⟨hr, hc⟩ => ?_, fun symbol fits ⟨hr, hc⟩ => ?_⟩
  · by_cases small : fitsSimm6 v = true
    · rw [expand, if_pos small]
      exact setsReg_of_exec (exec_movi rc v s)
    · rw [allocated, if_neg small] at present
      obtain ⟨hr, hc⟩ := present
      rw [expand, if_neg small]
      exact setsReg_of_exec (exec_movib_of_const (ib64Const_of_holds hr hc))
  · exact setsReg_of_exec (exec_movib_of_const (ib64Const_of_holds hr hc))
  · have addr : pcRelAddr s slot = .ok symbol :=
      (pcRelAddr_of_holds hr hc).trans (congrArg Except.ok (add_sext32_of_fits fits))
    exact setsReg_of_exec (exec_leapc_of_addr addr)

end Immediates

end Sys2Proof.Machine
end

section
/-! PROOFS. Words as bytes (R35), and the loads and stores (spec/42_memory_access.md R91 to R94): what they read and write,
what a narrower access sees (R33, R35), and a load after a store (R46, R188). -/

namespace Sys2Proof.Machine

/-! ## Words and their bytes -/

/-- The word of eight bytes, the first of them lowest. -/
def ofBytes (b : Nat → Byte) : Word := b 7 ++ b 6 ++ b 5 ++ b 4 ++ b 3 ++ b 2 ++ b 1 ++ b 0

theorem byteOf_ofBytes (b : Nat → Byte) {k : Nat} (hk : k < 8) : byteOf (ofBytes b) k = b k := by
  unfold byteOf ofBytes
  interval_cases k
  · exact BitVec.extractLsb'_append_eq_right
  all_goals rw [BitVec.extractLsb'_append_eq_of_le (by decide)]
  · exact BitVec.extractLsb'_append_eq_right
  all_goals rw [BitVec.extractLsb'_append_eq_of_le (by decide)]
  · exact BitVec.extractLsb'_append_eq_right
  all_goals rw [BitVec.extractLsb'_append_eq_of_le (by decide)]
  · exact BitVec.extractLsb'_append_eq_right
  all_goals rw [BitVec.extractLsb'_append_eq_of_le (by decide)]
  · exact BitVec.extractLsb'_append_eq_right
  all_goals rw [BitVec.extractLsb'_append_eq_of_le (by decide)]
  · exact BitVec.extractLsb'_append_eq_right
  all_goals rw [BitVec.extractLsb'_append_eq_of_le (by decide)]
  · exact BitVec.extractLsb'_append_eq_right
  · exact BitVec.extractLsb'_append_eq_left

theorem word_eq_of_bytes {v w : Word} (h : ∀ k < 8, byteOf v k = byteOf w k) : v = w := by
  rw [← bytes_of_word v, ← bytes_of_word w]
  simp only [h, Nat.reduceLT]

theorem dataWord_eq_ofBytes (s : State) (a : Addr) :
    dataWord s a = ofBytes fun k => dataByte s (a + BitVec.ofNat 64 k) := by
  simp [dataWord, ofBytes]

section Memory

variable {s t : State} {i : Instr} {ea : Addr} {v : Word} {rc : Reg}

theorem byteOf_dataWord {k : Nat} (hk : k < 8) (hd : deviceAt s.map (ea + BitVec.ofNat 64 k) = false) :
    byteOf (dataWord s ea) k = readByte s (ea + BitVec.ofNat 64 k) := by
  rw [dataWord_eq_ofBytes, byteOf_ofBytes _ hk, dataByte_of_memory hd]

/-- A data read of plain memory gives the word its bytes hold. -/
theorem dataWord_of_holds (hp : PlainMemoryAt s ea) (hv : Holds64 s ea v) : dataWord s ea = v :=
  word_eq_of_bytes fun k hk => (byteOf_dataWord hk (hp k hk)).trans (hv k hk)

/-- The record of device accesses grows by the accesses that reach a device. -/
theorem recordAccess_devLog_eq (s : State) (ea : Addr) (e : DeviceEvent) :
    (recordAccess s ea e).devLog = if PlainMemoryAt s ea then s.devLog else e :: s.devLog := by
  have touches : touchesDevice s.map ea = true ↔ ¬ PlainMemoryAt s ea := by
    simp [touchesDevice, allBytes_eq_false_iff]
  rw [recordAccess_devLog]
  by_cases hp : PlainMemoryAt s ea
  · rw [if_neg (fun h => touches.mp h hp), if_pos hp]
  · rw [if_pos (touches.mpr hp), if_neg hp]

/-! ## Loads (R91, R93) -/

/-- What an instruction that ends in a load does, by its address. -/
theorem loads_of_exec (h : exec i s = loadNext s rc ea) :
    (ea.toNat % 8 ≠ 0 → exec i s = .fault .misalignedData) ∧
    (ea.toNat % 8 = 0 → ¬ DataReadableAt s ea → exec i s = .fault .accessOutsideMap) ∧
    (ea.toNat % 8 = 0 → DataReadableAt s ea →
      ∃ t, exec i s = .next t ∧
        (∀ k < 8, deviceAt s.map (ea + BitVec.ofNat 64 k) = false →
          (readReg t rc).extractLsb' (8 * k) 8 = readByte s (ea + BitVec.ofNat 64 k)) ∧
        SameRegsExcept rc s t ∧ t.pc = s.pc + 2 ∧ t.ib = s.ib ∧ t.flag = s.flag ∧ SameTrapState s t ∧ SameMemory s t ∧
        t.map = s.map ∧ t.devLog = if PlainMemoryAt s ea then s.devLog else .read ea :: s.devLog) := by
  rw [h]
  refine ⟨loadNext_of_misaligned, loadNext_of_unreadable, fun ha hr => ⟨_, loadNext_of_readable ha hr, fun k hk hd => ?_,
    fun r hne => by simp [hne], by simp, by simp, by simp, by simp [SameTrapState], fun a => by simp, by simp,
    recordAccess_devLog_eq s ea _⟩⟩
  rw [readReg_advance_writeReg]
  exact byteOf_dataWord hk hd

/-- Settles O26: `load` ends in a load at its base plus its offset. -/
theorem loadReadsMemory : Obligations.LoadReadsMemory := by
  rintro rc rb u s ea rfl
  exact ⟨fun h => encodedAs_of_wellFormed (i := .load rc rb u) (decide_eq_true h), loads_of_exec (exec_load rc rb u s)⟩

/-- Settles O27: with its constant read, `loadpc` is a load at the address it forms. -/
theorem loadpcReadsMemory : Obligations.LoadpcReadsMemory := by
  rintro rc u s c ea rfl
  exact ⟨fun h => encodedAs_of_wellFormed (i := .loadpc rc u) (decide_eq_true h),
    fun hn => exec_of_constantUnreadable ⟨4, u * 4, rfl, hn⟩,
    fun hr hc => loads_of_exec (exec_loadpc_of_addr (pcRelAddr_of_holds hr hc))⟩

/-! ## Stores (R92, R94) -/

/-- Each of the eight bytes reads as stored, unless it is a device's. -/
theorem readByte_storeBytes (s : State) (ea : Addr) (v : Word) {k : Nat} (hk : k < 8) :
    readByte (storeBytes 8 s ea v) (ea + BitVec.ofNat 64 k) =
      if deviceAt s.map (ea + BitVec.ofNat 64 k) then readByte s (ea + BitVec.ofNat 64 k) else v.extractLsb' (8 * k) 8 := by
  split
  next device => exact readByte_storeBytes_device 8 s ea _ v device
  next plain => exact readByte_storeBytes_same 8 le_rfl s ea v k hk (Bool.eq_false_of_not_eq_true plain)

/-- What an instruction that ends in a store does, by its address. -/
theorem stores_of_exec (h : exec i s = storeNext s ea v) :
    (ea.toNat % 8 ≠ 0 → exec i s = .fault .misalignedData) ∧
    (ea.toNat % 8 = 0 → ¬ MappedAt s ea → exec i s = .fault .accessOutsideMap) ∧
    (ea.toNat % 8 = 0 → MappedAt s ea → ¬ DataWritableAt s ea → exec i s = .fault .storeToReadOnly) ∧
    (ea.toNat % 8 = 0 → DataWritableAt s ea →
      ∃ t, exec i s = .next t ∧
        (∀ k < 8, readByte t (ea + BitVec.ofNat 64 k) =
          if deviceAt s.map (ea + BitVec.ofNat 64 k) then readByte s (ea + BitVec.ofNat 64 k)
          else v.extractLsb' (8 * k) 8) ∧
        SameMemoryExcept ea s t ∧ SameRegs s t ∧ t.pc = s.pc + 2 ∧ t.ib = s.ib ∧ t.flag = s.flag ∧ SameTrapState s t ∧
        t.map = s.map ∧ t.devLog = if PlainMemoryAt s ea then s.devLog else .write ea v :: s.devLog) := by
  rw [h]
  refine ⟨storeNext_of_misaligned, storeNext_of_unmapped, storeNext_of_readOnly, fun ha hw =>
    ⟨_, storeNext_of_writable ha hw, fun k hk => ?_, sameMemoryExcept_store s ea v _, sameRegs_of_regs (by simp), by simp,
      by simp, by simp, by simp [SameTrapState], by simp, ?_⟩⟩
  · rw [readByte_advance, readByte_recordAccess, readByte_storeBytes s ea v hk]
  · rw [advance_devLog, recordAccess_devLog_eq]
    simp only [PlainMemoryAt, storeBytes_map, storeBytes_devLog]

/-- Settles O28: `store` ends in a store at its base plus its offset. -/
theorem storeWritesMemory : Obligations.StoreWritesMemory := by
  rintro rc rb u s ea rfl
  exact ⟨baseAddr_eq s rb u, fun h => encodedAs_of_wellFormed (i := .store rc rb u) (decide_eq_true h), stores_of_exec rfl⟩

/-- Settles O29: with its constant read, `storepc` is a store at the address it forms. -/
theorem storepcWritesMemory : Obligations.StorepcWritesMemory := by
  rintro rc u s c ea rfl
  exact ⟨fun h => encodedAs_of_wellFormed (i := .storepc rc u) (decide_eq_true h),
    fun hn => exec_of_constantUnreadable ⟨4, u * 4, rfl, hn⟩,
    fun hr hc => ⟨pcRelAddr_of_holds hr hc, stores_of_exec (exec_storepc_of_addr (pcRelAddr_of_holds hr hc))⟩⟩

/-! ## Reading what was written (R33, R35, R46) -/

/-- A word stored to plain memory is held there. -/
theorem holds64_storeBytes (hp : PlainMemoryAt s ea) : Holds64 (storeBytes 8 s ea v) ea v := fun k hk =>
  readByte_storeBytes_same 8 le_rfl s ea v k hk (hp k hk)

/-- Settles O30: the store leaves its word in plain memory, where the load reads it. -/
theorem loadAfterStoreReturnsValue : Obligations.LoadAfterStoreReturnsValue := by
  intro rc rb rd re u v s t hstore haddr hr hp
  obtain ⟨ha, _, ht⟩ := storeNext_next hstore
  have map : t.map = s.map := by rw [ht]; simp
  have plain : PlainMemoryAt t (baseAddr s rb u) := by rwa [PlainMemoryAt, map]
  have readable : DataReadableAt t (baseAddr s rb u) := by rwa [DataReadableAt, map]
  have holds : Holds64 t (baseAddr s rb u) (readReg s rc) := by
    rw [ht]
    simpa [Holds64] using holds64_storeBytes hp
  refine ⟨_, (congrArg (loadNext t rd) haddr).trans (loadNext_of_readable ha readable), ?_⟩
  rw [readReg_advance_writeReg]
  exact dataWord_of_holds plain holds

theorem read32_of_holds64_low (h : Holds64 s ea v) : read32 s ea = v.extractLsb' 0 32 := by
  rw [← read64_of_holds h]
  exact BitVec.extractLsb'_append_eq_right.symm

theorem read32_of_holds64_high (h : Holds64 s ea v) : read32 s (ea + 4) = v.extractLsb' 32 32 := by
  rw [← read64_of_holds h]
  exact BitVec.extractLsb'_append_eq_left.symm

theorem constRead32_ok {x : BitVec 32} (h : constRead32 s ea = .ok x) : x = read32 s ea := by
  rcases constRead32_cases s ea with ⟨_, e⟩ | ⟨_, e⟩ <;> rw [e] at h
  · exact (Except.ok.inj h).symm
  · cases h

theorem fetch_ok {w : Packet} (h : fetch s = .ok w) : w = packetOfBytes (readByte s s.pc) (readByte s (s.pc + 1)) := by
  unfold fetch at h
  split at h <;> cases h
  rfl

theorem memWrite_ok (h : memWrite s ea v = .ok t) : t = recordAccess (storeBytes 8 s ea v) ea (.write ea v) := by
  rcases memWrite_cases s ea v with ⟨_, e⟩ | ⟨_, _, e⟩ | ⟨_, _, _, e⟩ | ⟨_, _, e⟩ <;> rw [e] at h
  · cases h
  · cases h
  · cases h
  · exact (Except.ok.inj h).symm

/-- Settles O31: the eight bytes hold the word, and each narrower access joins the bytes it reads. -/
theorem narrowAccessSeesWideWrite : Obligations.NarrowAccessSeesWideWrite := by
  intro s t a v hwrite hp
  have holds : Holds64 t a v := by
    rw [memWrite_ok hwrite]
    simpa [Holds64] using holds64_storeBytes hp
  have middle : readByte t (a + 3) ++ readByte t (a + 2) = v.extractLsb' 16 16 := by
    have two : readByte t (a + 2) = _ := holds 2 (by decide)
    have three : readByte t (a + 3) = _ := holds 3 (by decide)
    rw [two, three]
    exact BitVec.extractLsb'_append_extractLsb'_eq_extractLsb' rfl
  refine ⟨fun x hx => (constRead32_ok hx).trans (read32_of_holds64_high holds),
    fun x hx => (constRead32_ok hx).trans (read32_of_holds64_low holds), fun w hw => ?_,
    read32_of_holds64_high holds, read32_of_holds64_low holds, middle⟩
  rw [fetch_ok hw, packetOfBytes, ← middle]
  simp [BitVec.add_assoc]

/-- Settles O32: the eight readable bytes of one constant are the four of each of the two. -/
theorem constantsAlias : Obligations.ConstantsAlias := by
  intro s n c h
  rcases constRead64_cases s (ib64Addr s n) with ⟨hr, e⟩ | ⟨_, e⟩ <;> rw [ib64Const, e] at h <;> cases h
  have low : ib32Addr s (2 * n) = ib64Addr s n := by
    rw [ib32Addr_eq, ib64Addr_eq]; congr 2; omega
  have high : ib32Addr s (2 * n + 1) = ib64Addr s n + 4 := by
    rw [ib32Addr_eq, ib64Addr_eq, BitVec.add_assoc]
    exact congrArg (s.ib + ·) ((congrArg (BitVec.ofNat 64) (by omega)).trans (BitVec.ofNat_add (n * 8) 4))
  have holds := holds64_read64 s (ib64Addr s n)
  constructor
  · rw [ib32Const_of_readable, low, read32_of_holds64_low holds, sext32]
    exact low ▸ fun k hk => hr k (by omega)
  · rw [ib32Const_of_readable, high, read32_of_holds64_high holds, sext32]
    intro k hk
    have readable := hr (4 + k) (by omega)
    rw [BitVec.ofNat_add, ← BitVec.add_assoc] at readable
    exact high ▸ readable

end Memory

end Sys2Proof.Machine
end

section
/-! PROOFS. `logic.i64` (spec/43_compare_logic.md R113 to R117): the byte swap, the counts of zeros and the sign extension. -/

namespace Sys2Proof.Machine

/-! ## The byte swap (R113) -/

theorem byteSwap_eq_ofBytes (v : Word) : byteSwap v = ofBytes fun j => byteOf v (7 - j) := by
  simp only [byteSwap, ofBytes, Nat.reduceSub]

theorem byteOf_byteSwap (v : Word) {k : Nat} (hk : k < 8) : byteOf (byteSwap v) k = byteOf v (7 - k) := by
  rw [byteSwap_eq_ofBytes, byteOf_ofBytes _ hk]

theorem byteSwap_byteSwap (v : Word) : byteSwap (byteSwap v) = v := by
  refine word_eq_of_bytes fun k hk => ?_
  rw [byteOf_byteSwap _ hk, byteOf_byteSwap _ (by omega)]
  congr 1
  omega

theorem exec_logicBswap (rc rb : Reg) (s : State) :
    exec (.logicBswap rc rb) s = setRegNext s rc (byteSwap (readReg s rb)) := by rfl

/-- Settles O38: byte k comes from byte 7 − k, so a second swap puts every byte back. -/
theorem byteSwapReverses : Obligations.ByteSwapReverses := by
  intro rc rb s
  obtain ⟨t, ht, hrc, frame⟩ := setsReg_of_exec (exec_logicBswap rc rb s)
  obtain ⟨t', ht', hrc', _⟩ := setsReg_of_exec (exec_logicBswap rc rc t)
  refine ⟨encodedAs_logic rfl rfl, t, ht, fun k hk => ?_, frame, t', ht', ?_⟩
  · rw [hrc]
    exact byteOf_byteSwap _ hk
  · rw [hrc', hrc, byteSwap_byteSwap]

/-! ## The counts of zeros (R114, R115) -/

/-- The run of positions that pass a test ends at the first that fails it, or at the end of the positions. -/
theorem length_takeWhile_range (p : Nat → Bool) (m : Nat) :
    ((List.range m).takeWhile p).length ≤ m ∧ (∀ i < ((List.range m).takeWhile p).length, p i = true) ∧
      (((List.range m).takeWhile p).length < m → p ((List.range m).takeWhile p).length = false) := by
  have first : ((List.range m).takeWhile p).length = (List.range m).findIdx (fun i => !p i) := by
    rw [List.takeWhile_eq_take_findIdx_not, List.length_take, Nat.min_eq_left List.findIdx_le_length]
  rw [first]
  refine ⟨List.findIdx_le_length.trans_eq List.length_range, fun i hi => ?_, fun hlt => ?_⟩
  · simpa using List.not_of_lt_findIdx hi
  · have fails := List.findIdx_getElem (xs := List.range m) (p := fun i => !p i) (w := by simpa using hlt)
    rw [List.getElem_range] at fails
    simpa using fails

theorem countTrailingZeros_spec (v : Word) :
    countTrailingZeros v ≤ 64 ∧ (∀ i < countTrailingZeros v, v.getLsbD i = false) ∧
      (countTrailingZeros v < 64 → v.getLsbD (countTrailingZeros v) = true) := by
  obtain ⟨le, zeros, one⟩ := length_takeWhile_range (fun i => !v.getLsbD i) 64
  exact ⟨le, fun i hi => Bool.not_inj (zeros i hi : _ = !false), fun hlt => Bool.not_inj (one hlt : _ = !true)⟩

theorem countLeadingZeros_spec (v : Word) :
    countLeadingZeros v ≤ 64 ∧ (∀ i < countLeadingZeros v, v.getLsbD (63 - i) = false) ∧
      (countLeadingZeros v < 64 → v.getLsbD (63 - countLeadingZeros v) = true) := by
  obtain ⟨le, zeros, one⟩ := length_takeWhile_range (fun i => !v.getLsbD (63 - i)) 64
  exact ⟨le, fun i hi => Bool.not_inj (zeros i hi : _ = !false), fun hlt => Bool.not_inj (one hlt : _ = !true)⟩

/-- A count up to 64 fits the register it is written to. -/
theorem toNat_uimm_of_le {n : Nat} (h : n ≤ 64) : (uimm n).toNat = n := Nat.mod_eq_of_lt (by omega)

theorem exec_logicCtz (rc rb : Reg) (s : State) :
    exec (.logicCtz rc rb) s = setRegNext s rc (uimm (countTrailingZeros (readReg s rb))) := by rfl

theorem exec_logicClz (rc rb : Reg) (s : State) :
    exec (.logicClz rc rb) s = setRegNext s rc (uimm (countLeadingZeros (readReg s rb))) := by rfl

/-- Settles O39: each count is the length of the run of zeros from its end. -/
theorem countZeros : Obligations.CountZeros := by
  intro rc rb s
  constructor
  · obtain ⟨le, zeros, one⟩ := countTrailingZeros_spec (readReg s rb)
    obtain ⟨t, ht, hn, frame⟩ := setsValue_of_exec BitVec.toNat (exec_logicCtz rc rb s) (toNat_uimm_of_le le)
    exact ⟨encodedAs_logic rfl rfl, t, _, ht, hn, le, zeros, one, frame⟩
  · obtain ⟨le, zeros, one⟩ := countLeadingZeros_spec (readReg s rb)
    obtain ⟨t, ht, hn, frame⟩ := setsValue_of_exec BitVec.toNat (exec_logicClz rc rb s) (toNat_uimm_of_le le)
    exact ⟨encodedAs_logic rfl rfl, t, _, ht, hn, le, zeros, one, frame⟩

/-! ## The sign extension (R117) -/

/-- The bits of a source width. -/
def sextBits (w : SextWidth) : Nat :=
  match w with
  | .w8 => 8
  | .w16 => 16
  | .w32 => 32

theorem sextBits_cases (w : SextWidth) : sextBits w = 8 ∨ sextBits w = 16 ∨ sextBits w = 32 := by
  cases w <;> simp [sextBits]

theorem signExtendFrom_eq (w : SextWidth) (v : Word) :
    signExtendFrom w v = (v.extractLsb' 0 (sextBits w)).signExtend 64 := by
  cases w <;> rfl

/-- Sign extension gives the signed value of the low bits. -/
theorem toInt_signExtendFrom (w : SextWidth) (v : Word) :
    (signExtendFrom w v).toInt = (v.toNat : Int).bmod (2 ^ sextBits w) := by
  have fits : sextBits w ≤ 64 := by rcases sextBits_cases w with h | h | h <;> omega
  rw [signExtendFrom_eq, BitVec.toInt_signExtend_of_le fits, BitVec.toInt_extractLsb']
  simp

/-- A value whose upper bits all repeat its sign bit is its own sign extension. -/
theorem signExtendFrom_of_upper_bits (w : SextWidth) {v : Word}
    (h : ∀ i, sextBits w ≤ i → i < 64 → v.getLsbD i = v.getLsbD (sextBits w - 1)) : signExtendFrom w v = v := by
  have pos : 0 < sextBits w := by rcases sextBits_cases w with h | h | h <;> omega
  rw [signExtendFrom_eq]
  refine BitVec.eq_of_getLsbD_eq fun i hi => ?_
  rw [BitVec.getLsbD_signExtend, decide_eq_true hi, Bool.true_and]
  split
  next low => simp [low]
  next high => simp [BitVec.msb_eq_getLsbD_last, pos, h i (by omega) hi]

theorem exec_logicSext (rc rb : Reg) (s : State) :
    exec (.logicSext rc rb) s = setRegNext s rc (signExtendFrom Config.sextWidth (readReg s rb)) := by rfl

/-- Settles O41: the width is that of the open parameter, whichever it is. -/
theorem signExtendsFromOneWidth : Obligations.SignExtendsFromOneWidth := by
  refine ⟨sextBits Config.sextWidth, sextBits_cases _, fun rc rb s => ⟨encodedAs_logic rfl rfl, ?_⟩⟩
  obtain ⟨t, ht, hrc, frame⟩ := setsReg_of_exec (exec_logicSext rc rb s)
  exact ⟨t, ht, hrc ▸ toInt_signExtendFrom _ _, fun h => hrc.trans (signExtendFrom_of_upper_bits _ h), frame⟩

end Sys2Proof.Machine
end

section
/-! PROOFS. The three-register instructions (spec/44_arith.md R120 to R130), and the assembler's comparisons
(spec/45_assembler_abi.md R151). -/

namespace Sys2Proof.Machine

/-! ## pin (R120) -/

theorem toNat_lane0 (v : Word) : (lane0 v).toNat = v.toNat % 2 ^ 32 := by
  rw [lane0, BitVec.extractLsb'_toNat, Nat.shiftRight_zero]

theorem toNat_lane1 (v : Word) : (lane1 v).toNat = v.toNat / 2 ^ 32 := by
  rw [lane1, BitVec.extractLsb'_toNat, Nat.shiftRight_eq_div_pow]
  omega

/-- Settles O42: the lanes of what `pin` packs are the low halves of the two differences. -/
theorem pinPacksDifferences : Obligations.PinPacksDifferences := by
  intro rc rb ra s
  obtain ⟨t, ht, hrc, frame⟩ := setsReg_of_exec (exec_pin rc rb ra s)
  refine ⟨encodedAs_of_wellFormed (i := .pin rc rb ra) rfl, t, ht, ?_, ?_, frame⟩
  · rw [hrc, ← toNat_lane0, pinVector, lane0_packLanes]
    exact toNat_lane0 _
  · rw [hrc, ← toNat_lane1, pinVector, lane1_packLanes]
    exact toNat_lane0 _

section Arithmetic

variable (rc rb ra : Reg) (s : State)

/-! ## Sum, difference and product (R124, R128, R129) -/

theorem exec_add : exec (.add rc rb ra) s = setRegNext s rc (readReg s rb + readReg s ra) := by rfl

theorem exec_sub : exec (.sub rc rb ra) s = setRegNext s rc (readReg s rb - readReg s ra) := by rfl

theorem exec_mul : exec (.mul rc rb ra) s = setRegNext s rc (mulLow (readReg s rb) (readReg s ra)) := by rfl

/-- The low half of the signed product is the product of words, so also that of the unsigned one (D33). -/
theorem mulLow_eq (a b : Word) : mulLow a b = a * b := by
  rw [mulLow, BitVec.ofInt_mul, BitVec.ofInt_toInt, BitVec.ofInt_toInt]

theorem toNat_sub_eq_emod (a b : Word) : ((a - b).toNat : Int) = (a.toNat - b.toNat : Int) % 2 ^ 64 := by
  rw [BitVec.toNat_sub]
  omega

/-- Settles O44: the operations of words are those of their signed and of their unsigned values, modulo 2^64. -/
theorem wrappingArithmetic : Obligations.WrappingArithmetic := by
  intro rc rb ra s
  refine ⟨⟨encodedAs_of_wellFormed (i := .add rc rb ra) rfl, ?_⟩, ⟨encodedAs_of_wellFormed (i := .sub rc rb ra) rfl, ?_⟩,
    encodedAs_of_wellFormed (i := .mul rc rb ra) rfl, ?_⟩
  · obtain ⟨t, ht, hrc, frame⟩ := setsReg_of_exec (exec_add rc rb ra s)
    exact ⟨t, ht, hrc ▸ BitVec.toInt_add _ _, hrc ▸ BitVec.toNat_add _ _, frame⟩
  · obtain ⟨t, ht, hrc, frame⟩ := setsReg_of_exec (exec_sub rc rb ra s)
    exact ⟨t, ht, hrc ▸ BitVec.toInt_sub, hrc ▸ toNat_sub_eq_emod _ _, frame⟩
  · obtain ⟨t, ht, hrc, frame⟩ := setsReg_of_exec ((exec_mul rc rb ra s).trans (congrArg _ (mulLow_eq _ _)))
    exact ⟨t, ht, hrc ▸ BitVec.toInt_mul _ _, hrc ▸ BitVec.toNat_mul _ _, frame⟩

/-! ## Shifts (R125 to R127) -/

theorem exec_srl :
    exec (.srl rc rb ra) s = setRegNext s rc (shiftRightLogical (readReg s rb) (shiftCount (readReg s ra))) := by rfl

theorem exec_sra :
    exec (.sra rc rb ra) s = setRegNext s rc (shiftRightArith (readReg s rb) (shiftCount (readReg s ra))) := by rfl

theorem exec_sll :
    exec (.sll rc rb ra) s = setRegNext s rc (shiftLeft (readReg s rb) (shiftCount (readReg s ra))) := by rfl

theorem shiftCount_eq (v : Word) : shiftCount v = v.toNat % 64 := by
  rw [shiftCount, BitVec.extractLsb'_toNat, Nat.shiftRight_zero]

/-- Settles O45: the immediate shifts' values, by a count reduced modulo 64. -/
theorem registerShifts : Obligations.RegisterShifts := by
  rintro rc rb ra s n rfl
  rw [← shiftCount_eq]
  exact ⟨⟨encodedAs_of_wellFormed (i := .srl rc rb ra) rfl,
      setsValue_of_exec BitVec.toNat (exec_srl rc rb ra s) (toNat_shiftRightLogical _ _)⟩,
    ⟨encodedAs_of_wellFormed (i := .sra rc rb ra) rfl,
      setsValue_of_exec BitVec.toInt (exec_sra rc rb ra s) (toInt_shiftRightArith _ _)⟩,
    encodedAs_of_wellFormed (i := .sll rc rb ra) rfl,
    setsValue_of_exec BitVec.toNat (exec_sll rc rb ra s) (toNat_shiftLeft _ _)⟩

end Arithmetic

/-! ## Division (R130) -/

/-- The overflow wraps to the dividend. -/
theorem toInt_divSigned_overflow {a b : Word} (ha : a.toInt = -(2 ^ 63)) (hb : b.toInt = -1) :
    (divSigned a b).toInt = -(2 ^ 63) := by
  rw [divSigned, ha, hb]
  decide

/-- Every other quotient fits the word. -/
theorem toInt_divSigned {a b : Word} (h : ¬ (a.toInt = -(2 ^ 63) ∧ b.toInt = -1)) :
    (divSigned a b).toInt = a.toInt.tdiv b.toInt := by
  have wraps : (divSigned a b).toInt = (a.sdiv b).toInt := by rw [divSigned, BitVec.toInt_ofInt, BitVec.toInt_sdiv]
  rw [wraps, BitVec.toInt_sdiv_of_ne_or_ne]
  by_contra hn
  simp only [ne_eq, not_or, not_not] at hn
  obtain ⟨rfl, rfl⟩ := hn
  exact h (by decide)

theorem tmod_nonpos {a : Int} (b : Int) (h : a ≤ 0) : a.tmod b ≤ 0 := by
  have := Int.tmod_nonneg b (neg_nonneg.mpr h)
  rw [Int.neg_tmod] at this
  omega

/-- Settles O46: a zero divisor traps; else the quotient is rounded toward zero, its remainder of the dividend's sign. -/
theorem signedDivision : Obligations.SignedDivision := by
  intro rc rb ra s
  refine ⟨encodedAs_of_wellFormed (i := .div rc rb ra) rfl,
    fun hz => ⟨_, exec_div_of_zero hz, entersTrap_takeTrap s _⟩, fun hz => ?_⟩
  obtain ⟨t, ht, hrc, frame⟩ := setsReg_of_exec (exec_div_of_ne_zero (rc := rc) (rb := rb) hz)
  have divisor : (readReg s ra).toInt ≠ 0 := fun h => hz (BitVec.eq_of_toInt_eq h)
  refine ⟨t, (readReg s rb).toInt.tdiv (readReg s ra).toInt, (readReg s rb).toInt.tmod (readReg s ra).toInt, ht, frame,
    ?_, ?_, Int.tmod_nonneg _, tmod_nonpos _, ?_⟩
  · rw [add_comm, Int.tmod_add_tdiv_mul]
  · rw [Int.natAbs_tmod]
    exact Nat.mod_lt _ (Int.natAbs_pos.mpr divisor)
  · rw [hrc]
    split
    next overflow => exact toInt_divSigned_overflow overflow.1 overflow.2
    next fits => exact toInt_divSigned fits

/-! ## The comparison aliases (R151) -/

theorem decides_of_exec {i : Instr} {s : State} {b : Bool} {P : Prop} (h : exec i s = setFlagNext s b) (hb : b = true ↔ P) :
    ∃ t, exec i s = .next t ∧ (t.flag = true ↔ P) := by
  obtain ⟨t, ht, hflag, _⟩ := setsFlag_of_exec h hb
  exact ⟨t, ht, hflag⟩

/-- Settles O57: each expands to the comparison of its operands, the swapped ones with the operands exchanged. -/
theorem comparisonAliases : Obligations.ComparisonAliases := by
  rintro rc rb s a b rfl rfl
  exact ⟨decides_of_exec rfl (flagLt_iff _ _), decides_of_exec rfl (flagLt_iff _ _), decides_of_exec rfl (flagGe_iff _ _),
    decides_of_exec rfl (flagGe_iff _ _), decides_of_exec rfl decide_eq_true_iff, decides_of_exec rfl decide_eq_true_iff,
    decides_of_exec rfl (flagLtu_iff _ _), decides_of_exec rfl (flagLtu_iff _ _), decides_of_exec rfl (flagGeu_iff _ _),
    decides_of_exec rfl (flagGeu_iff _ _), rfl, rfl⟩

end Sys2Proof.Machine
end
